-- ==== Sys2Proof/Word.lean ====
section
/-! DEFINITION. The word types of NECRX (00_scope.md R6, R8). -/

namespace Sys2Proof

/-- A host-visible register, a cursor, a command word (00_scope.md R6). -/
abbrev Word := BitVec 32

/-- One byte lane of a host-port word (20_memory.md R73). -/
abbrev Byte := BitVec 8

/-- An EdgeInterval: a 32-bit two's-complement number of microseconds (00_scope.md R6). -/
abbrev Sample := BitVec 32

/-- A TimeSequence: a finite list of samples, a smaller index being an earlier interval (00_scope.md R10). -/
abbrev TimeSeq := List Sample

end Sys2Proof
end

