-- ==== Sys2Proof/Config.lean ====
section
/-! DEFINITION. What one NECRX fixes (its parameters, 00_scope.md R5) and the free values: constants with no body, of
which nothing in Lean can prove a value. -/

namespace Sys2Proof

/-- The implementation parameters (00_scope.md R5), fixed for one NECRX. N is held as its logarithm, so that it is a
power of two by construction. -/
structure Params where
  /-- LOG2N, the base-2 logarithm of the ring capacity N. -/
  log2N : Nat
  /-- REM_CAP, the capacity of the remainder store in samples. -/
  remCap : Nat
  /-- TW, the width in bits of the clock input NOW. -/
  tw : Nat
  deriving DecidableEq, Repr

/-- The ring capacity N in samples. -/
def Params.n (p : Params) : Nat := 2 ^ p.log2N

/-- The legal parameter ranges of 00_scope.md R5: 2 <= N <= 16384, 66 <= REM_CAP <= 16384, 2 <= TW <= 32. -/
abbrev Params.Valid (p : Params) : Prop :=
  1 ≤ p.log2N ∧ p.log2N ≤ 14 ∧ 66 ≤ p.remCap ∧ p.remCap ≤ 16384 ∧ 2 ≤ p.tw ∧ p.tw ≤ 32

/-- The parameters 95_test_vectors.md takes "unless a vector says otherwise": N = 128, REM_CAP = 256, TW = 32.
DESIGN CHOICE, log entry 3: the spec fixes no parameter. -/
def Params.standard : Params := { log2N := 7, remCap := 256, tw := 32 }

/-- FREE VALUE (U12, log entry 7): the NOW the clock delivers at an engine step that no listed input carries, by the
number of such draws before it. -/
opaque Config.freeNow : Nat → BitVec 32

/-- FREE VALUE (U2, log entry 5): what LAST holds after an RST input, by the number of that RST. -/
opaque Config.freeLast : Nat → BitVec 32

/-- FREE VALUE (U1, log entry 4): the byte at a slot address that no capture has written since the last RST, by the
number of that RST and the address. -/
opaque Config.freeSlotByte : Nat → Nat → BitVec 8

end Sys2Proof
end

