-- ==== Sys2Proof/Syntax.lean ====
section
/-! DEFINITION. The instructions of NECRX: one constructor of Instr for each row of spec/opcode_table.json. -/

namespace Sys2Proof

/-- The defined commands (30_encoding.md R91); OP holds one of them while it is performed (10_state.md R37). -/
inductive Command where
  | nop | poll | drain | rbReset | sdReset | reset | start | stop
  deriving DecidableEq, Repr

/-- The setpoints NECRX compares with, the protocol constants of 00_scope.md R7. -/
inductive Setpoint where
  | hdrMark | hdrSpace | rptSpace | bitMark | zeroSpace | oneSpace
  deriving DecidableEq, Repr

/-- One constructor per row of the opcode table. The eight commands have no operands (30_encoding.md R90); CAPTURE takes
its NOW from the clock pins (R96); MATCH, SCAN and DECODE are the engine's combinational functions (R140, R142, R161);
RESERVED holds the 32-bit word that is none of the commands (R93). -/
inductive Instr where
  | nop
  | poll
  | drain
  | rbReset
  | sdReset
  | reset
  | start
  | stop
  | capture
  | matchOp (m : Sample) (sp : Setpoint)
  | scan (seq : TimeSeq) (sp : Setpoint)
  | decode (seq : TimeSeq)
  | reserved (w : Word)
  deriving DecidableEq, Repr

end Sys2Proof
end

