-- ==== Sys2Proof/WellFormed.lean ====
section
/-! DEFINITION. Which terms of Instr stand for something the spec describes. -/

namespace Sys2Proof

/-- A reserved word is one that is not in the table of 30_encoding.md R91: OPC 0x8 to 0xF with ZERO = 0, or ZERO ≠ 0. -/
def reservedWordOk (w : Word) : Bool := decide (8 ≤ w.toNat)

/-- The precondition of DECODE (42_nec_decoder.md R161): the first element lies in the HDR_MARK window, which
41_matcher_scanner.md R141 gives as 5697 .. 12303. -/
def headerAligned : TimeSeq → Bool
  | [] => false
  | m :: _ => decide (5697 ≤ m.toInt ∧ m.toInt ≤ 12303)

/-- Well-formedness: the two checks above; every other term is well formed, its operands being of the right type. -/
def Instr.wellFormed : Instr → Bool
  | .reserved w => reservedWordOk w
  | .decode seq => headerAligned seq
  | .nop => true
  | .poll => true
  | .drain => true
  | .rbReset => true
  | .sdReset => true
  | .reset => true
  | .start => true
  | .stop => true
  | .capture => true
  | .matchOp _ _ => true
  | .scan _ _ => true

end Sys2Proof
end

