-- ==== Sys2Proof/Decode.lean ====
section
/-! DEFINITION. The command decoder and encoder (30_encoding.md R90 to R97), and the byte lanes of a word (20_memory.md
R73). -/

namespace Sys2Proof

/-- The four byte lanes of a word, lane k carrying bits 8k+7:8k (20_memory.md R73). -/
def bytesOfWord (w : Word) : List Byte :=
  [w.extractLsb' 0 8, w.extractLsb' 8 8, w.extractLsb' 16 8, w.extractLsb' 24 8]

/-- The word on four byte lanes, lane 0 first. -/
def wordOfLanes (b0 b1 b2 b3 : Byte) : Word := b3 ++ b2 ++ b1 ++ b0

/-- The command words of 30_encoding.md R91. -/
def Command.word : Command → Word
  | .nop => 0x00000000#32
  | .poll => 0x00000001#32
  | .drain => 0x00000002#32
  | .rbReset => 0x00000003#32
  | .sdReset => 0x00000004#32
  | .reset => 0x00000005#32
  | .start => 0x00000006#32
  | .stop => 0x00000007#32

/-- The rows of the table of 30_encoding.md R91. -/
def commandTable : List Command := [.nop, .poll, .drain, .rbReset, .sdReset, .reset, .start, .stop]

/-- The command whose whole word is w, if there is one (30_encoding.md R97). -/
def commandOfWord (w : Word) : Option Command := commandTable.find? (fun c => decide (c.word = w))

/-- The instruction a command is. -/
def Command.instr : Command → Instr
  | .nop => .nop
  | .poll => .poll
  | .drain => .drain
  | .rbReset => .rbReset
  | .sdReset => .sdReset
  | .reset => .reset
  | .start => .start
  | .stop => .stop

/-- Decoding a word written to CMD, total: compare the whole word with the table, and otherwise it is reserved
(30_encoding.md R93, R97). -/
def decodeWord (w : Word) : Instr :=
  match commandOfWord w with
  | some c => c.instr
  | none => .reserved w

/-- Why bytes are no command word: a command is one whole 32-bit word (30_encoding.md R97). -/
inductive DecodeError where
  /-- fewer than four bytes are left -/
  | shortWord
  deriving DecidableEq, Repr

/-- Decoding bytes in lane order: one instruction and the bytes after it, or a rejection by name. -/
def decode : List Byte → Except DecodeError (Instr × List Byte)
  | b0 :: b1 :: b2 :: b3 :: rest => .ok (decodeWord (wordOfLanes b0 b1 b2 b3), rest)
  | _ => .error .shortWord

/-- The word of an instruction; CAPTURE, MATCH, SCAN and DECODE have none (30_encoding.md R96, 41_matcher_scanner.md R140). -/
def encodeWord : Instr → Option Word
  | .nop => some Command.nop.word
  | .poll => some Command.poll.word
  | .drain => some Command.drain.word
  | .rbReset => some Command.rbReset.word
  | .sdReset => some Command.sdReset.word
  | .reset => some Command.reset.word
  | .start => some Command.start.word
  | .stop => some Command.stop.word
  | .reserved w => some w
  | .capture => none
  | .matchOp _ _ => none
  | .scan _ _ => none
  | .decode _ => none

/-- The bytes of an instruction that has a word, in lane order. -/
def encode (i : Instr) : Option (List Byte) := (encodeWord i).map bytesOfWord

/-- The decoder's answer for a table row of nbits bits: the word with every bit above nbits 0, laid out in lane order.
No command is longer than 32 bits (30_encoding.md R97). -/
def decodeTableWord (nbits w : Nat) : Option Instr :=
  if nbits ≤ 32 then
    match decode (bytesOfWord (BitVec.ofNat 32 (w % 2 ^ nbits))) with
    | .ok (i, _) => some i
    | .error _ => none
  else none

-- Every command's word of 30_encoding.md R91 and opcode_table.json, written out, and reserved words of 95_test_vectors.md 2.9.
theorem decode_word_nop : decodeWord 0b00000000000000000000000000000000#32 = .nop := by decide
theorem decode_word_poll : decodeWord 0b00000000000000000000000000000001#32 = .poll := by decide
theorem decode_word_drain : decodeWord 0b00000000000000000000000000000010#32 = .drain := by decide
theorem decode_word_rbReset : decodeWord 0b00000000000000000000000000000011#32 = .rbReset := by decide
theorem decode_word_sdReset : decodeWord 0b00000000000000000000000000000100#32 = .sdReset := by decide
theorem decode_word_reset : decodeWord 0b00000000000000000000000000000101#32 = .reset := by decide
theorem decode_word_start : decodeWord 0b00000000000000000000000000000110#32 = .start := by decide
theorem decode_word_stop : decodeWord 0b00000000000000000000000000000111#32 = .stop := by decide
theorem decode_word_reserved_8 : decodeWord 0x00000008#32 = .reserved 0x00000008#32 := by decide
theorem decode_word_reserved_alias : decodeWord 0x00000011#32 = .reserved 0x00000011#32 := by decide
theorem decode_word_reserved_ones : decodeWord 0xFFFFFFFF#32 = .reserved 0xFFFFFFFF#32 := by decide

end Sys2Proof
end

