-- ==== Sys2Proof/Machine/State.lean ====
section
/-! DEFINITION. The state of NECRX as plain data (10_state.md R24 to R37), the model's own interface fields, the reasons
a step can stop, and the state after reset (10_state.md R53, 70_reset_and_hazards.md R240). -/

namespace Sys2Proof.Machine

/-- The three agents (10_state.md R20): the capture agent, the command engine, the host. -/
inductive Agent where
  | cap | eng | host
  deriving DecidableEq, Repr

/-- PH of a drain (10_state.md R37). -/
inductive Phase where
  | accepted | snapped
  deriving DecidableEq, Repr

/-- DSTATE (10_state.md R31); the fourth code is never produced. -/
inductive DState where
  | idle | headerMatched | fault
  deriving DecidableEq, Repr

/-- Which interval of a bit pair matched no window (42_nec_decoder.md R160). -/
inductive Part where
  | mark | space
  deriving DecidableEq, Repr

/-- The outcome of one decode attempt (42_nec_decoder.md R160). -/
inductive DecodeOut where
  | short
  | noMatch
  | repeatFrame
  | data (v : Word)
  | fault (k : Nat) (part : Part) (p : Word)
  deriving DecidableEq, Repr

/-- The output of a combinational function evaluated alone (MODEL's own, log entry 9). -/
inductive FnOut where
  | idle
  | matched (b : Bool)
  | scanned (i : Option Nat)
  | decoded (d : DecodeOut)
  deriving DecidableEq, Repr

/-- One step that the environment or the scheduler has chosen (10_state.md R20, R22; log entry 1). -/
inductive Input where
  /-- an EDGE event, CAPTURE sampling the given clock pins -/
  | edge (now : Word)
  /-- the engine's turn, with the clock pins at that step -/
  | engine (now : Word)
  /-- MemRead(off, width) -/
  | hostRead (off : BitVec 18) (width : Nat)
  /-- MemWrite(off, width, v) -/
  | hostWrite (off : BitVec 18) (width : Nat) (v : Word)
  /-- the power-on reset RST -/
  | rst
  deriving DecidableEq, Repr

/-- The ring's slot store, as (address, byte) pairs with strictly rising addresses: slot i at the port addresses
0x10000 + 4i .. 0x10000 + 4i + 3 (10_state.md R24, R50; log entries 4 and 10). -/
abbrev Memory := List Host.Cell

/-- The canonical form of a memory. An unlisted byte reads as a free value, to which no entry can be known equal. -/
abbrev Memory.wf (m : Memory) : Prop := m.Pairwise (fun x y => x.1 < y.1)

/-- Everything the spec gives the machine, and below it the model's own fields. -/
structure State where
  /-- N, REM_CAP, TW (00_scope.md R5); no step changes them -/
  params : Params
  /-- slot[0..N-1] (10_state.md R24) -/
  mem : Memory
  /-- the write cursor (R25) -/
  w : Word
  /-- the read cursor (R26) -/
  r : Word
  /-- LAST, in the low TW bits (R28) -/
  last : Word
  /-- ARMED (R29) -/
  armed : Bool
  /-- REM (R30) -/
  rem : TimeSeq
  /-- DSTATE (R31) -/
  dstate : DState
  /-- RESULT (R32, R43) -/
  result : Word
  /-- VALUE (R33) -/
  value : Word
  /-- PARTIAL (R34) -/
  partialBits : Word
  /-- CTRL.RESYNC (R35) -/
  resync : Bool
  /-- ERR_BUSY (R36) -/
  errBusy : Bool
  /-- ERR_CMD (R36) -/
  errCmd : Bool
  /-- REM_OVF (R36) -/
  remOvf : Bool
  /-- OP, none when no command is in flight (R37) -/
  op : Option Command
  /-- PH (R37) -/
  ph : Phase
  /-- W0 (R37) -/
  w0 : Word
  /-- ND (R37) -/
  nd : Nat
  /-- S0 (R37) -/
  s0 : Word
  /-- J (R37) -/
  j : Nat
  /-- OUT (R37) -/
  out : TimeSeq
  /-- RS (R37) -/
  rs : Bool
  /-- the clock pins NOW at this step, low TW bits (R22) -/
  now : Word
  /-- MODEL: the coming steps, the next one first (log entry 1) -/
  inputs : List Input
  /-- MODEL: the agent whose step is being performed (log entry 2) -/
  agent : Agent
  /-- MODEL: the word the last MemRead returned (log entry 8) -/
  rdata : Option Word
  /-- MODEL: the output of the last function evaluated alone (log entry 9) -/
  fnOut : FnOut
  /-- MODEL: how many free NOW values were drawn (log entry 7) -/
  draws : Nat
  /-- MODEL: how many RST inputs were taken (log entry 4) -/
  era : Nat
  deriving DecidableEq, Repr

/-- Why a step stops the machine. -/
inductive Fault where
  /-- Raised by a drain step of DRAIN or POLL in a state with J > ND, in which neither READ nor the commit is enabled
  (40_ring_buffer.md R115, R116). No step reaches such a state (Safety.lean, Inv). Safe. -/
  | engineStuck
  deriving DecidableEq, Repr

/-- Why a step has no meaning. -/
inductive Refusal where
  /-- An instruction without a meaning yet, by its mnemonic; raised by no arm of this model. Safe. -/
  | notModelled (mnemonic : String)
  /-- A host access whose width is not 4 bytes, refused as 20_memory.md R71 says; raised by a host read or write. Safe. -/
  | accessWidth
  /-- A host access at an offset that is not a multiple of 4, refused as 20_memory.md R72 says. Safe. -/
  | misaligned
  /-- A step that is not enabled: a command's engine step while OP is not that command, or a command's step by the
  capture agent (10_state.md R20, 40_ring_buffer.md R115). step never asks for one. Safe. -/
  | notEnabled
  deriving DecidableEq, Repr

/-- The state right after RST for the given parameters: 10_state.md R53, with the values the log names for LAST
(entry 5), the in-flight fields (entry 6) and the model's own fields. -/
def State.resetWith (p : Params) : State :=
  { params := p, mem := [], w := 0, r := 0, last := 0, armed := false,
    rem := [], dstate := .idle, result := 0, value := 0, partialBits := 0, resync := false,
    errBusy := false, errCmd := false, remOvf := false,
    op := none, ph := .accepted, w0 := 0, nd := 0, s0 := 0, j := 0, out := [], rs := false,
    now := 0, inputs := [], agent := .host, rdata := none, fnOut := .idle, draws := 0, era := 0 }

/-- The machine right after reset, with the parameters of 95_test_vectors.md (log entry 3). -/
def State.reset : State := State.resetWith Params.standard

end Sys2Proof.Machine
end

