-- ==== Sys2Proof/Machine/Operands.lean ====
section
/-! DEFINITION. The operands of the rules: the sample format, the clock pins and the wrap-safe difference, the setpoints. -/

namespace Sys2Proof.Machine

/-- tc32(x): the 32-bit two's-complement pattern of an integer (00_scope.md R9, 30_encoding.md R94). -/
def tc32 (x : Int) : Sample := BitVec.ofInt 32 x

/-- int32(b): the integer a 32-bit pattern denotes (00_scope.md R9, 30_encoding.md R94). -/
def int32 (b : Sample) : Int := b.toInt

/-- sdiff_TW(a, b), an integer in [-2^(TW-1), 2^(TW-1)) (00_scope.md R9). -/
def sdiffTW (tw : Nat) (a b : Int) : Int := (a - b + 2 ^ (tw - 1)) % 2 ^ tw - 2 ^ (tw - 1)

/-- The low TW bits of a 32-bit word: NOW and LAST have TW bits (10_state.md R22, R28). -/
def lowBits (tw : Nat) (x : Word) : Word := BitVec.ofNat 32 (x.toNat % 2 ^ tw)

/-- The clock value a step samples: the TW pins of NOW (10_state.md R22). -/
def State.sampleNow (s : State) : Word := lowBits s.params.tw s.now

/-- The protocol constants in microseconds (00_scope.md R7). -/
def setpointUs : Setpoint → Int
  | .hdrMark => 9000
  | .hdrSpace => 4500
  | .rptSpace => 2250
  | .bitMark => 560
  | .zeroSpace => 560
  | .oneSpace => 1690

/-- The bit count of a data frame (00_scope.md R7). -/
def frameBits : Nat := 32

end Sys2Proof.Machine
end

