-- ==== Sys2Proof/Machine/Flags.lean ====
section
/-! DEFINITION. Every flag and result word: STATUS (10_state.md R42), RESULT (R43), CTRL (R40), PARAM (R49), and the
sticky error flags (R36). NECRX has no condition codes (R52). -/

namespace Sys2Proof.Machine

/-- One flag as a one-bit field. -/
def flagBit (b : Bool) : BitVec 1 := BitVec.ofBool b

/-- The code of DSTATE (10_state.md R31). -/
def dstateCode : DState → BitVec 2
  | .idle => 0
  | .headerMatched => 1
  | .fault => 2

/-- BUSY = 1 exactly when OP ≠ none (10_state.md R37). -/
def State.busy (s : State) : Bool := s.op.isSome

/-- The STATUS word (10_state.md R42). -/
def State.statusWord (s : State) : Word :=
  0#25 ++ flagBit s.remOvf ++ flagBit s.errCmd ++ flagBit s.errBusy ++ dstateCode s.dstate ++ flagBit s.busy ++
    flagBit s.armed

/-- A host write of v to STATUS: each of bits 4, 5, 6 that v has 1 clears its flag, all else is ignored (10_state.md R42). -/
def State.clearFlags (v : Word) (s : State) : State :=
  { s with
    errBusy := s.errBusy && !v.getLsbD 4
    errCmd := s.errCmd && !v.getLsbD 5
    remOvf := s.remOvf && !v.getLsbD 6 }

/-- The CTRL word (10_state.md R40). -/
def State.ctrlWord (s : State) : Word := 0#31 ++ flagBit s.resync

/-- A host write of v to CTRL: bit 0 becomes RESYNC, the rest is ignored (10_state.md R40). -/
def State.writeCtrl (v : Word) (s : State) : State := { s with resync := v.getLsbD 0 }

/-- The PARAM word (10_state.md R49). -/
def paramWord (p : Params) : Word :=
  0#1 ++ BitVec.ofNat 15 p.remCap ++ 0#5 ++ BitVec.ofNat 6 p.tw ++ BitVec.ofNat 5 p.log2N

/-- The reasons of a POLL without a frame (10_state.md R43). -/
inductive Reason where
  | empty | noHeader | short | noMatch
  deriving DecidableEq, Repr

/-- The code of REASON (10_state.md R43). -/
def reasonCode : Reason → BitVec 3
  | .empty => 0
  | .noHeader => 1
  | .short => 2
  | .noMatch => 3

/-- The code of FAULT_PART (10_state.md R43): 0 the mark failed, 1 the space failed. -/
def partCode : Part → BitVec 1
  | .mark => 0
  | .space => 1

/-- A RESULT word from its fields (10_state.md R43). -/
def resultWord (kind : BitVec 2) (reason : BitVec 3) (faultBit : BitVec 5) (faultPart : BitVec 1) : Word :=
  0#18 ++ faultPart ++ faultBit ++ 0#3 ++ reason ++ kind

/-- RESULT <- NONE/x (43_streaming.md R183). -/
def resultNone (x : Reason) : Word := resultWord 0 (reasonCode x) 0 0

/-- RESULT <- REPEAT (43_streaming.md R183). -/
def resultRepeat : Word := resultWord 1 0 0 0

/-- RESULT <- DATA (43_streaming.md R183). -/
def resultData : Word := resultWord 2 0 0 0

/-- RESULT <- FAULT(k, part) (43_streaming.md R183). -/
def resultFault (k : Nat) (part : Part) : Word := resultWord 3 0 (BitVec.ofNat 5 k) (partCode part)

/-- The fields of a RESULT word (10_state.md R43). -/
def resultKind (x : Word) : BitVec 2 := x.extractLsb' 0 2
def resultReason (x : Word) : BitVec 3 := x.extractLsb' 2 3
def resultFaultBit (x : Word) : BitVec 5 := x.extractLsb' 8 5
def resultFaultPart (x : Word) : BitVec 1 := x.extractLsb' 13 1

end Sys2Proof.Machine
end

