-- ==== Sys2Proof/Machine/Ops.lean ====
section
/-! DEFINITION. The shared operations: the slot store, the ring cursors, the life of a command (30_encoding.md R92), the
drain (40_ring_buffer.md R115, R116), the remainder (43_streaming.md R181), the entry of a DecodeFault and the return from
it (60_exceptions.md R223, R224), and RST (70_reset_and_hazards.md R240). -/

namespace Sys2Proof.Machine

-- The slot store.

/-- The byte listed at an address, if any. -/
def Memory.find : Memory → Nat → Option Byte
  | [], _ => none
  | (k, b) :: m, a => if k = a then some b else Memory.find m a

/-- Writing one byte, the addresses staying strictly rising. -/
def Memory.put : Memory → Nat → Byte → Memory
  | [], a, b => [(a, b)]
  | (k, c) :: m, a, b =>
    if a < k then (a, b) :: (k, c) :: m else if a = k then (a, b) :: m else (k, c) :: Memory.put m a b

/-- Reading one byte. THE ONE DEFINITION of what an unlisted address reads as: a free value (U1, log entry 4), one for
each address and each RST. -/
def Memory.byte (era : Nat) (m : Memory) (a : Nat) : Byte := (Memory.find m a).getD (Config.freeSlotByte era a)

/-- Reading the word on the byte lanes a .. a+3 (20_memory.md R73). -/
def Memory.word (era : Nat) (m : Memory) (a : Nat) : Word :=
  wordOfLanes (Memory.byte era m a) (Memory.byte era m (a + 1)) (Memory.byte era m (a + 2)) (Memory.byte era m (a + 3))

/-- Writing the bytes from address a upwards. -/
def Memory.putBytes : Memory → Nat → List Byte → Memory
  | m, _, [] => m
  | m, a, b :: bs => Memory.putBytes (Memory.put m a b) (a + 1) bs

/-- Writing a word on the byte lanes a .. a+3 (20_memory.md R73). -/
def Memory.putWord (m : Memory) (a : Nat) (v : Word) : Memory := Memory.putBytes m a (bytesOfWord v)

/-- Where slot i stands: 0x10000 + 4i (10_state.md R50). -/
def slotAddr (i : Nat) : Nat := 0x10000 + 4 * i

/-- slot[i] (10_state.md R24). -/
def State.slot (s : State) (i : Nat) : Word := Memory.word s.era s.mem (slotAddr i)

/-- The index of the slot the next capture writes: w mod N (10_state.md R25). -/
def State.slotIndex (s : State) : Nat := s.w.toNat % s.params.n

/-- The port address a capture stores to: that of slot[w mod N] (40_ring_buffer.md R110). -/
def State.storeAddr (s : State) : Nat := slotAddr s.slotIndex

-- The ring.

/-- RB_COUNT(w, r) = min((w - r) mod 2^32, N) (10_state.md R27). -/
def rbCount (n : Nat) (w r : Word) : Nat := min (w - r).toNat n

/-- The unread samples, oldest first (10_state.md R27). -/
def State.unread (s : State) : TimeSeq :=
  let count := rbCount s.params.n s.w s.r
  (List.range count).map (fun k => s.slot ((s.w - BitVec.ofNat 32 count + BitVec.ofNat 32 k).toNat % s.params.n))

/-- The interval a capture measures: sdiff_TW(NOW, LAST) (40_ring_buffer.md R110). -/
def State.interval (s : State) : Int := sdiffTW s.params.tw s.sampleNow.toNat s.last.toNat

/-- slot[w mod N] <- v (40_ring_buffer.md R110). -/
def State.storeSample (v : Sample) (s : State) : State := { s with mem := Memory.putWord s.mem s.storeAddr v }

/-- w <- (w + 1) mod 2^32 and LAST <- t (40_ring_buffer.md R110). -/
def State.advanceWrite (t : Word) (s : State) : State := { s with w := s.w + 1, last := t }

/-- w <- 0 and r <- 0 in one step (40_ring_buffer.md R114, 20_memory.md R82). -/
def State.rewindRing (s : State) : State := { s with w := 0, r := 0 }

-- The life of a command.

/-- The agent a takes the step that is about to be performed (10_state.md R20). -/
def State.enter (a : Agent) (s : State) : State := { s with agent := a }

/-- The clock pins carry now. -/
def State.setNow (now : Word) (s : State) : State := { s with now := now }

/-- The clock pins carry a free value: an engine step that no listed input carries (log entry 7). -/
def State.drawNow (s : State) : State := { s with now := Config.freeNow s.draws, draws := s.draws + 1 }

/-- ERR_BUSY <- 1 (60_exceptions.md R213). -/
def State.setErrBusy (s : State) : State := { s with errBusy := true }

/-- ERR_CMD <- 1 (60_exceptions.md R214). -/
def State.setErrCmd (s : State) : State := { s with errCmd := true }

/-- OP <- c, PH <- ACCEPTED, and for POLL RS <- CTRL.RESYNC (10_state.md R41). -/
def State.take (c : Command) (s : State) : State :=
  { s with op := some c, ph := .accepted, rs := if c = .poll then s.resync else s.rs }

/-- A host write of the defined command word of c to CMD (10_state.md R41). -/
def State.accept (c : Command) (s : State) : State := if s.op = none then s.take c else s.setErrBusy

/-- A host write of a reserved word to CMD (10_state.md R41, 30_encoding.md R93). -/
def State.rejectWord (s : State) : State := if s.op = none then s.setErrCmd else s.setErrBusy

/-- OP <- none, the end of every commit (30_encoding.md R92). -/
def State.finish (s : State) : State := { s with op := none }

/-- The steps of one command: the host's write of its word to CMD, and the engine's steps while OP is that command
(30_encoding.md R92). No other agent takes a step of it. -/
def commandStep (c : Command) (engine : State → Host.Outcome State Fault Refusal) (s : State) :
    Host.Outcome State Fault Refusal :=
  match s.agent with
  | .host => .next (s.accept c)
  | .eng => if s.op = some c then engine s else .refused .notEnabled
  | .cap => .refused .notEnabled

-- The drain.

/-- Step SNAP (40_ring_buffer.md R115). -/
def State.snap (s : State) : State :=
  { s with
    w0 := s.w
    nd := rbCount s.params.n s.w s.r
    s0 := s.w - BitVec.ofNat 32 (rbCount s.params.n s.w s.r)
    j := 0
    out := []
    ph := .snapped }

/-- The sample READ returns: slot[(S0 + J) mod N] (40_ring_buffer.md R115). -/
def State.nextSample (s : State) : Sample := s.slot ((s.s0.toNat + s.j) % s.params.n)

/-- Step READ (40_ring_buffer.md R115). -/
def State.readSlot (s : State) : State := { s with out := s.out ++ [s.nextSample], j := s.j + 1 }

/-- The sequence APPEND returns (43_streaming.md R181): the REM_CAP most recent samples. -/
def appended (cap : Nat) (rem out : TimeSeq) : TimeSeq :=
  if (rem ++ out).length > cap then (rem ++ out).drop ((rem ++ out).length - cap) else rem ++ out

/-- Whether APPEND sets REM_OVF (43_streaming.md R181). -/
def overflows (cap : Nat) (rem out : TimeSeq) : Bool := decide ((rem ++ out).length > cap)

/-- The commit of a drain: r <- W0, REM <- APPEND(REM, OUT) (40_ring_buffer.md R116). -/
def State.drainCommit (s : State) : State :=
  { s with
    r := s.w0
    rem := appended s.params.remCap s.rem s.out
    remOvf := s.remOvf || overflows s.params.remCap s.rem s.out }

/-- The engine steps of DRAIN and POLL: SNAP, then READ while J < ND, then the command's commit when J = ND
(40_ring_buffer.md R115, R116). -/
def drainSteps (commit : State → State) (s : State) : Host.Outcome State Fault Refusal :=
  match s.ph with
  | .accepted => .next s.snap
  | .snapped =>
    if s.j < s.nd then .next s.readSlot
    else if s.j = s.nd then .next (commit s)
    else .fault .engineStuck

-- The DecodeFault: entry and return. NECRX has no trap mechanism (60_exceptions.md R210); this is all a fault does.

/-- Fault entry (60_exceptions.md R223, 43_streaming.md R183 and R184): RESULT and PARTIAL record the fault; with RS = 0
DSTATE becomes FAULT and REM stays, with RS = 1 REM loses everything up to the interval at index i. -/
def State.takeDecodeFault (i k : Nat) (part : Part) (p : Word) (s : State) : State :=
  { s with
    result := resultFault k part
    partialBits := p
    dstate := if s.rs then .idle else .fault
    rem := if s.rs then s.rem.drop (i + 1) else s.rem }

/-- Fault return (60_exceptions.md R224): the streaming decoder cleared (43_streaming.md R185). -/
def State.clearDecoder (s : State) : State :=
  { s with rem := [], dstate := .idle, result := 0, partialBits := 0 }

/-- RST (70_reset_and_hazards.md R240): every piece of the spec's state at the value of 10_state.md R53. LAST and the
slots are unspecified: LAST takes a free value, and with the next era so do the unwritten slots (log entries 4 and 5). The
parameters, the coming inputs and the model's other fields stay (log entry 16). -/
def State.powerOn (s : State) : State :=
  { State.resetWith s.params with
    last := lowBits s.params.tw (Config.freeLast (s.era + 1))
    era := s.era + 1
    now := s.now, inputs := s.inputs, agent := s.agent, rdata := s.rdata, fnOut := s.fnOut, draws := s.draws }

end Sys2Proof.Machine
end

