-- ==== Sys2Proof/Machine/RingBuffer.lean ====
section
/-! DEFINITION. The edge-capture family (40_ring_buffer.md): CAPTURE, START, STOP, RB_RESET, DRAIN. -/

namespace Sys2Proof.Machine

/-- CAPTURE (40_ring_buffer.md R110): with ARMED = 1 the interval is stored, w advances and LAST takes NOW; with ARMED = 0
nothing changes. -/
def execCapture (s : State) : Host.Outcome State Fault Refusal :=
  .next (if s.armed then (s.storeSample (tc32 s.interval)).advanceWrite s.sampleNow else s)

/-- The commit of START (40_ring_buffer.md R112). -/
def commitStart (s : State) : State :=
  State.finish (if s.armed then s else { s with last := s.sampleNow, armed := true })

/-- START (40_ring_buffer.md R112). -/
def execStart (s : State) : Host.Outcome State Fault Refusal := commandStep .start (fun t => .next (commitStart t)) s

/-- The commit of STOP (40_ring_buffer.md R113). -/
def commitStop (s : State) : State := State.finish { s with armed := false }

/-- STOP (40_ring_buffer.md R113). -/
def execStop (s : State) : Host.Outcome State Fault Refusal := commandStep .stop (fun t => .next (commitStop t)) s

/-- RB_RESET (40_ring_buffer.md R114). -/
def execRbReset (s : State) : Host.Outcome State Fault Refusal :=
  commandStep .rbReset (fun t => .next t.rewindRing.finish) s

/-- DRAIN (40_ring_buffer.md R118). -/
def execDrain (s : State) : Host.Outcome State Fault Refusal :=
  commandStep .drain (drainSteps (fun t => t.drainCommit.finish)) s

end Sys2Proof.Machine
end

