-- ==== Sys2Proof/Machine/Matcher.lean ====
section
/-! DEFINITION. The tolerance matcher and the frame scanner (41_matcher_scanner.md): MATCH and SCAN. -/

namespace Sys2Proof.Machine

/-- MATCH(m, s) = ( |m - s| < (s * 12032) div 32768 ), exact integer arithmetic, div the floor (41_matcher_scanner.md R140). -/
def matchUs (m s : Int) : Bool := decide (((m - s).natAbs : Int) < s * 12032 / 32768)

/-- MATCH of a stored sample with a protocol constant. -/
def matchSample (m : Sample) (sp : Setpoint) : Bool := matchUs (int32 m) (setpointUs sp)

/-- SCAN(seq, s): the smallest index whose sample matches, none for NOT_FOUND (41_matcher_scanner.md R142). -/
def scanSeq : TimeSeq → Setpoint → Option Nat
  | [], _ => none
  | m :: seq, sp => if matchSample m sp then some 0 else (scanSeq seq sp).map (· + 1)

/-- MATCH evaluated alone: its value on fnOut, no state of NECRX changed (41_matcher_scanner.md R140, R143). -/
def execMatch (m : Sample) (sp : Setpoint) (s : State) : Host.Outcome State Fault Refusal :=
  .next { s with fnOut := .matched (matchSample m sp) }

/-- SCAN evaluated alone: its value on fnOut, no state of NECRX changed (41_matcher_scanner.md R142, R143). -/
def execScan (seq : TimeSeq) (sp : Setpoint) (s : State) : Host.Outcome State Fault Refusal :=
  .next { s with fnOut := .scanned (scanSeq seq sp) }

end Sys2Proof.Machine
end

