-- ==== Sys2Proof/Machine/NecDecoder.lean ====
section
/-! DEFINITION. The NEC bit decoder (42_nec_decoder.md): DECODE. -/

namespace Sys2Proof.Machine

/-- Step 5 of DECODE (42_nec_decoder.md R161): n more bit pairs, the first of them at bit index k, v assembled so far. The
last case is not reached, since step 4 has checked the length. -/
def decodePairs : Nat → Nat → Word → TimeSeq → DecodeOut
  | 0, _, v, _ => .data v
  | n + 1, k, v, mark :: space :: rest =>
    if !matchSample mark .bitMark then .fault k .mark v
    else if matchSample space .oneSpace then decodePairs n (k + 1) (v ||| (1#32 <<< (31 - k))) rest
    else if matchSample space .zeroSpace then decodePairs n (k + 1) v rest
    else .fault k .space v
  | _ + 1, _, _, _ => .short

/-- DECODE(seq), the checks in the order of 42_nec_decoder.md R161. The first element is not examined. -/
def decodeSeq : TimeSeq → DecodeOut
  | _ :: a :: b :: rest =>
    if matchSample a .rptSpace && matchSample b .zeroSpace then .repeatFrame
    else if !matchSample a .hdrSpace then .noMatch
    else if (b :: rest).length < 2 * frameBits then .short
    else decodePairs frameBits 0 0 (b :: rest)
  | _ => .short

/-- How many elements a frame consumes (42_nec_decoder.md R160): 3 for REPEAT, 66 for DATA; nothing else consumes any. -/
def consumed : DecodeOut → Nat
  | .repeatFrame => 3
  | .data _ => 66
  | .short => 0
  | .noMatch => 0
  | .fault _ _ _ => 0

/-- DECODE evaluated alone: its value on fnOut, no state of NECRX changed (42_nec_decoder.md R161). -/
def execDecode (seq : TimeSeq) (s : State) : Host.Outcome State Fault Refusal :=
  .next { s with fnOut := .decoded (decodeSeq seq) }

end Sys2Proof.Machine
end

