-- ==== Sys2Proof/Machine/Streaming.lean ====
section
/-! DEFINITION. The streaming decoder family (43_streaming.md): POLL, SD_RESET, RESET, NOP, and the reserved words
(30_encoding.md R93). -/

namespace Sys2Proof.Machine

/-- The outcome of a decode attempt on a remainder (43_streaming.md R182). -/
inductive Attempt where
  | empty
  | noHeader
  | found (i : Nat) (d : DecodeOut)
  deriving DecidableEq, Repr

/-- ATTEMPT(T) (43_streaming.md R182). -/
def attempt (t : TimeSeq) : Attempt :=
  if t.length = 0 then .empty
  else
    match scanSeq t .hdrMark with
    | none => .noHeader
    | some i => .found i (decodeSeq (t.drop i))

/-- What a POLL records of an attempt, s.rem being T (43_streaming.md R183). -/
def State.record (s : State) : Attempt → State
  | .empty => { s with result := resultNone .empty, dstate := .idle }
  | .noHeader => { s with result := resultNone .noHeader, dstate := .idle }
  | .found _ .short => { s with result := resultNone .short, dstate := .headerMatched }
  | .found _ .noMatch => { s with result := resultNone .noMatch, dstate := .headerMatched }
  | .found i .repeatFrame =>
    { s with rem := s.rem.drop (i + consumed .repeatFrame), result := resultRepeat, dstate := .idle }
  | .found i (.data v) =>
    { s with rem := s.rem.drop (i + consumed (.data v)), result := resultData, value := v, dstate := .idle }
  | .found i (.fault k part p) => s.takeDecodeFault i k part p

/-- The decode part of POLL's commit: with a latched fault no attempt is made (43_streaming.md R183, R184). -/
def State.decodeOnce (s : State) : State := if s.dstate = .fault then s else s.record (attempt s.rem)

/-- The commit of POLL (43_streaming.md R183). -/
def commitPoll (s : State) : State := s.drainCommit.decodeOnce.finish

/-- POLL (43_streaming.md R183). -/
def execPoll (s : State) : Host.Outcome State Fault Refusal := commandStep .poll (drainSteps commitPoll) s

/-- SD_RESET (43_streaming.md R185). -/
def execSdReset (s : State) : Host.Outcome State Fault Refusal :=
  commandStep .sdReset (fun t => .next t.clearDecoder.finish) s

/-- RESET: both resets in one step (43_streaming.md R186). -/
def execReset (s : State) : Host.Outcome State Fault Refusal :=
  commandStep .reset (fun t => .next t.rewindRing.clearDecoder.finish) s

/-- NOP: the commit only ends the command (43_streaming.md R187). -/
def execNop (s : State) : Host.Outcome State Fault Refusal := commandStep .nop (fun t => .next t.finish) s

/-- A reserved word written to CMD by the host (30_encoding.md R93); the word itself does not matter (60_exceptions.md
R221). No other agent writes CMD. -/
def execReserved (_w : Word) (s : State) : Host.Outcome State Fault Refusal :=
  match s.agent with
  | .host => .next s.rejectWord
  | .eng => .refused .notEnabled
  | .cap => .refused .notEnabled

end Sys2Proof.Machine
end

