-- ==== Sys2Proof/Machine/Dispatch.lean ====
section
/-! DEFINITION. exec: one arm per constructor of Instr, each a direct call of its meaning. -/

namespace Sys2Proof.Machine

def exec (i : Instr) (s : State) : Host.Outcome State Fault Refusal :=
  match i with
  | .nop => Sys2Proof.Machine.execNop s
  | .poll => Sys2Proof.Machine.execPoll s
  | .drain => Sys2Proof.Machine.execDrain s
  | .rbReset => Sys2Proof.Machine.execRbReset s
  | .sdReset => Sys2Proof.Machine.execSdReset s
  | .reset => Sys2Proof.Machine.execReset s
  | .start => Sys2Proof.Machine.execStart s
  | .stop => Sys2Proof.Machine.execStop s
  | .capture => Sys2Proof.Machine.execCapture s
  | .matchOp m sp => Sys2Proof.Machine.execMatch m sp s
  | .scan seq sp => Sys2Proof.Machine.execScan seq sp s
  | .decode seq => Sys2Proof.Machine.execDecode seq s
  | .reserved w => Sys2Proof.Machine.execReserved w s

end Sys2Proof.Machine
end

