-- ==== Sys2Proof/Machine/HostPort.lean ====
section
/-! DEFINITION. The host port (20_memory.md R70 to R78): the register map of 10_state.md R38 read and written. A write to
CMD is an instruction and is decoded in Machine/Inputs.lean. -/

namespace Sys2Proof.Machine

/-- The offset of CMD (10_state.md R38). -/
def cmdOffset : BitVec 18 := 0x00004

/-- Why a host access is refused: its width is not 4 bytes (20_memory.md R71), or its offset is not a multiple of 4 (R72). -/
def accessRefusal (off : BitVec 18) (width : Nat) : Option Refusal :=
  if width ≠ 4 then some .accessWidth
  else if off.toNat % 4 ≠ 0 then some .misaligned
  else none

/-- The RB_SLOT window: slot[i] for i < N, 0 above (10_state.md R50). -/
def State.slotWindow (s : State) (i : Nat) : Word := if i < s.params.n then s.slot i else 0

/-- The REM window: REM[j] for j < len(REM), 0 above (10_state.md R51). -/
def State.remWindow (s : State) (j : Nat) : Word := s.rem.getD j 0

/-- A count in bits 14:0 of a word (10_state.md R46, R47). -/
def countWord (n : Nat) : Word := 0#17 ++ BitVec.ofNat 15 n

/-- What a read at an offset returns (10_state.md R38 to R51, 20_memory.md R76): 0 wherever the map lists nothing. -/
def State.readReg (s : State) (off : Nat) : Word :=
  if off = 0x00000 then s.ctrlWord
  else if off = 0x00008 then s.statusWord
  else if off = 0x0000C then s.result
  else if off = 0x00010 then s.value
  else if off = 0x00014 then s.partialBits
  else if off = 0x00018 then s.w
  else if off = 0x0001C then s.r
  else if off = 0x00020 then countWord (rbCount s.params.n s.w s.r)
  else if off = 0x00024 then countWord s.rem.length
  else if off = 0x00028 then s.last
  else if off = 0x0002C then paramWord s.params
  else if 0x10000 ≤ off ∧ off < 0x20000 then s.slotWindow ((off - 0x10000) / 4)
  else if 0x20000 ≤ off ∧ off < 0x30000 then s.remWindow ((off - 0x20000) / 4)
  else 0

/-- What a write at an offset other than CMD does (20_memory.md R74): CTRL and STATUS take it, all else ignores it. -/
def State.writeReg (s : State) (off : Nat) (v : Word) : State :=
  if off = 0x00000 then s.writeCtrl v
  else if off = 0x00008 then s.clearFlags v
  else s

/-- MemRead: the word goes to the host, no state of NECRX changes (20_memory.md R70, R74). -/
def hostReadStep (off : BitVec 18) (width : Nat) (s : State) : Host.Outcome State Fault Refusal :=
  match accessRefusal off width with
  | some reason => .refused reason
  | none => .next { s with rdata := some (s.readReg off.toNat) }

/-- MemWrite at an offset other than CMD (20_memory.md R70, R74). -/
def hostWriteStep (off : BitVec 18) (width : Nat) (v : Word) (s : State) : Host.Outcome State Fault Refusal :=
  match accessRefusal off width with
  | some reason => .refused reason
  | none => .next (s.writeReg off.toNat v)

end Sys2Proof.Machine
end

