-- ==== Sys2Proof/Machine/Inputs.lean ====
section
/-! DEFINITION. Which step comes next: the head of State.inputs, and with none listed the engine's turn (log entry 1). -/

namespace Sys2Proof.Machine

/-- What the next step is: an instruction to run at a state, or a step that is no instruction, with its outcome. -/
inductive Fetched where
  | run (i : Instr) (s : State)
  | done (o : Host.Outcome State Fault Refusal)

/-- The engine's turn: the next engine step of the command in flight; with none in flight the engine has no step to take
(10_state.md R37, 30_encoding.md R92). -/
def engineTurn (s : State) : Fetched :=
  match s.op with
  | some c => .run c.instr (s.enter .eng)
  | none => .done (.next s)

/-- A host write: to CMD it is the accept step of the word's instruction, elsewhere a register write (10_state.md R41,
20_memory.md R74). -/
def hostWriteTurn (off : BitVec 18) (width : Nat) (v : Word) (s : State) : Fetched :=
  if off = cmdOffset ∧ width = 4 then .run (decodeWord v) (s.enter .host)
  else .done (hostWriteStep off width v (s.enter .host))

/-- The step an input asks for, the input being taken off the list already. -/
def takeInput (s : State) : Input → Fetched
  | .edge now => .run .capture ((s.setNow now).enter .cap)
  | .engine now => engineTurn (s.setNow now)
  | .hostRead off width => .done (hostReadStep off width (s.enter .host))
  | .hostWrite off width v => hostWriteTurn off width v s
  | .rst => .done (.next s.powerOn)

/-- The next step. With no input listed, the engine goes on with the command in flight, drawing a free NOW
(92_eei_decisions.md D28: every accepted command commits); with none in flight nothing happens. -/
def fetch (s : State) : Fetched :=
  match s.inputs with
  | e :: rest => takeInput { s with inputs := rest } e
  | [] => if s.op = none then .done (.next s) else engineTurn s.drawNow

/-- The bits an instruction word of nbits bits has, those above nbits being 0. -/
def tableWord (nbits w : Nat) : Word := BitVec.ofNat 32 (w % 2 ^ nbits)

/-- The host's write of the word to CMD becomes the next input (log entry 12). -/
def State.withCommandWord (s : State) (v : Word) : State := { s with inputs := .hostWrite cmdOffset 4 v :: s.inputs }

end Sys2Proof.Machine
end

