-- ==== Sys2Proof/Machine/Step.lean ====
section
/-! DEFINITION. One step of NECRX, and how an instruction word is put where the next step takes it. -/

namespace Sys2Proof.Machine

/-- One step: fetch the next one and perform it. -/
def step (s : State) : Host.Outcome State Fault Refusal :=
  match fetch s with
  | .run i t => exec i t
  | .done o => o

/-- s with a host write of the word to CMD as the very next input, so that step runs exactly that instruction (log entry
12: NECRX fetches no program, the host's CMD writes are the program). -/
def State.withFetchWord (s : State) (nbits w : Nat) : State := s.withCommandWord (tableWord nbits w)

end Sys2Proof.Machine
end

