-- ==== Sys2Proof/Safety.lean ====
section
/-! DEFINITION. The terms claims use: the invariant of a run, what stays equal in a frame, and the NEC frame as a
sequence of intervals. -/

namespace Sys2Proof.Machine

-- The invariant.

/-- The slot store is canonical and holds nothing outside the N slots (10_state.md R24, R50). -/
abbrev State.MemOk (s : State) : Prop :=
  Memory.wf s.mem ∧ ∀ c ∈ s.mem, 0x10000 ≤ c.1 ∧ c.1 < 0x10000 + 4 * s.params.n

/-- The formats of 10_state.md R43 and 93_implementation_defined.md U7: bits 7:5 and 31:14 are 0, REASON is 0 to 3 and is 0
when KIND ≠ NONE, FAULT_BIT and FAULT_PART are 0 when KIND ≠ FAULT. -/
abbrev ResultFormat (x : Word) : Prop :=
  x.extractLsb' 5 3 = 0 ∧ x.extractLsb' 14 18 = 0 ∧ (resultReason x).toNat ≤ 3 ∧
    (resultKind x ≠ 0 → resultReason x = 0) ∧ (resultKind x ≠ 3 → resultFaultBit x = 0 ∧ resultFaultPart x = 0)

/-- DSTATE and RESULT belong together (10_state.md R31, 43_streaming.md R190): FAULT with a fault, HEADER_MATCHED with SHORT
or NO_MATCH, IDLE with neither of these two. -/
abbrev State.DStateOk (s : State) : Prop :=
  match s.dstate with
  | .fault => resultKind s.result = 3
  | .headerMatched => s.result = resultNone .short ∨ s.result = resultNone .noMatch
  | .idle => s.result ≠ resultNone .short ∧ s.result ≠ resultNone .noMatch

/-- While RESULT shows a fault at bit k, PARTIAL has nothing below bit 32 - k (10_state.md R34, 42_nec_decoder.md R162). -/
abbrev State.PartialOk (s : State) : Prop :=
  resultKind s.result = 3 → ∀ b < 32 - (resultFaultBit s.result).toNat, s.partialBits.getLsbD b = false

/-- The in-flight state (10_state.md R37): a drain that has its snapshot holds ND = min(W0 - r, N), S0 = W0 - ND, J <= ND
and J samples; a command that drains nothing has no snapshot. -/
abbrev State.FlightOk (s : State) : Prop :=
  s.op ≠ none → s.ph = .snapped →
    (s.op = some .drain ∨ s.op = some .poll) ∧ s.nd = rbCount s.params.n s.w0 s.r ∧
      s.s0 = s.w0 - BitVec.ofNat 32 s.nd ∧ s.j ≤ s.nd ∧ s.out.length = s.j

/-- What holds at reset and what every step keeps. -/
structure State.Inv (s : State) : Prop where
  params : s.params.Valid
  mem : s.MemOk
  rem : s.rem.length ≤ s.params.remCap
  last : s.last.toNat < 2 ^ s.params.tw
  result : ResultFormat s.result
  dstate : s.DStateOk
  partialBits : s.PartialOk
  flight : s.FlightOk

-- Frames: the parts of the state that a statement says are unchanged.

/-- Every byte of memory reads as before. -/
def SameMemory (s t : State) : Prop := ∀ a, Memory.byte t.era t.mem a = Memory.byte s.era s.mem a

/-- The ring cursors, LAST and ARMED. -/
def SameCapture (s t : State) : Prop := t.w = s.w ∧ t.r = s.r ∧ t.last = s.last ∧ t.armed = s.armed

/-- REM, DSTATE, RESULT, VALUE and PARTIAL. -/
def SameDecoder (s t : State) : Prop :=
  t.rem = s.rem ∧ t.dstate = s.dstate ∧ t.result = s.result ∧ t.value = s.value ∧ t.partialBits = s.partialBits

/-- CTRL and the sticky flags. -/
def SameFlags (s t : State) : Prop :=
  t.resync = s.resync ∧ t.errBusy = s.errBusy ∧ t.errCmd = s.errCmd ∧ t.remOvf = s.remOvf

/-- The in-flight fields other than OP. -/
def SameFlight (s t : State) : Prop :=
  t.ph = s.ph ∧ t.w0 = s.w0 ∧ t.nd = s.nd ∧ t.s0 = s.s0 ∧ t.j = s.j ∧ t.out = s.out ∧ t.rs = s.rs

/-- The parameters, the clock pins and the model's own fields other than fnOut. -/
def SameModel (s t : State) : Prop :=
  t.params = s.params ∧ t.now = s.now ∧ t.inputs = s.inputs ∧ t.agent = s.agent ∧ t.rdata = s.rdata ∧
    t.draws = s.draws ∧ t.era = s.era

-- The accept step and the host's register accesses.

/-- The host's write of the word of command c (instruction i) to CMD, as 10_state.md R41 says: accepted when OP = none,
otherwise ignored with ERR_BUSY. -/
def AcceptsAs (i : Instr) (c : Command) : Prop :=
  ∀ s : State, s.agent = .host →
    (s.op = none →
      exec i s = .next { s with op := some c, ph := .accepted, rs := if c = .poll then s.resync else s.rs }) ∧
    (s.op ≠ none → exec i s = .next { s with errBusy := true })

/-- The engine's turn in s belongs to command c. -/
def EngineHas (c : Command) (s : State) : Prop := s.agent = .eng ∧ s.op = some c

/-- The engine steps of command c between accept and commit: SNAP, and READ while J < ND (40_ring_buffer.md R115). -/
def SnapsThenReads (c : Command) : Prop :=
  ∀ s : State, EngineHas c s →
    (s.ph = .accepted → exec c.instr s = .next { s with
      w0 := s.w, nd := min (s.w - s.r).toNat s.params.n, s0 := s.w - BitVec.ofNat 32 (min (s.w - s.r).toNat s.params.n),
      j := 0, out := [], ph := .snapped }) ∧
    (s.ph = .snapped → s.j < s.nd → exec c.instr s = .next { s with
      out := s.out ++ [s.slot ((s.s0.toNat + s.j) % s.params.n)], j := s.j + 1 })

/-- A 32-bit MemRead at off is answered with x and changes nothing else (20_memory.md R74). -/
def ReadReturns (s : State) (off : BitVec 18) (x : Word) : Prop :=
  ∀ rest, s.inputs = .hostRead off 4 :: rest →
    step s = .next { s with inputs := rest, agent := .host, rdata := some x }

/-- A 32-bit MemWrite of v at off leaves the state t, the input being taken. -/
def WriteLeaves (s : State) (off : BitVec 18) (v : Word) (t : State) : Prop :=
  ∀ rest, s.inputs = .hostWrite off 4 v :: rest → step s = .next { t with inputs := rest, agent := .host }

/-- A flag as 0 or 1. -/
def bitNat (b : Bool) : Nat := if b then 1 else 0

-- The NEC frame.

/-- Bit k of a code in the order received: k = 0 is value bit 31 (42_nec_decoder.md R162). -/
def codeBit (v : Word) (k : Nat) : Bool := v.getLsbD (31 - k)

/-- The mark and space at bit position k of a sequence that starts with a header (42_nec_decoder.md R161). -/
def markAt (seq : TimeSeq) (k : Nat) : Sample := seq.getD (2 + 2 * k) 0
def spaceAt (seq : TimeSeq) (k : Nat) : Sample := seq.getD (3 + 2 * k) 0

/-- The pair at bit position k is a received bit b: the mark matches BIT_MARK, the space ONE_SPACE or ZERO_SPACE
(42_nec_decoder.md R161 step 5). -/
def bitAt (seq : TimeSeq) (k : Nat) (b : Bool) : Prop :=
  matchSample (markAt seq k) .bitMark = true ∧
    matchSample (spaceAt seq k) (if b then .oneSpace else .zeroSpace) = true

/-- A sequence in which steps 1 to 4 of DECODE lead to the bit pairs (42_nec_decoder.md R161): 66 samples, a header space,
no repeat. The first sample is left free, as R161 does not look at it (log entry 15). -/
def dataShaped (seq : TimeSeq) : Prop :=
  66 ≤ seq.length ∧ matchSample (seq.getD 1 0) .hdrSpace = true ∧
    ¬ (matchSample (seq.getD 1 0) .rptSpace = true ∧ matchSample (seq.getD 2 0) .zeroSpace = true)

/-- The canonical intervals of one bit (30_encoding.md R99): 560 and then 560 or 1690. -/
def bitIntervals (b : Bool) : TimeSeq := [560#32, if b then 1690#32 else 560#32]

/-- The 66 canonical intervals of a data frame (30_encoding.md R99, 95_test_vectors.md 1.3). -/
def frameIntervals (v : Word) : TimeSeq :=
  9000#32 :: 4500#32 :: (List.range 32).flatMap (fun k => bitIntervals (codeBit v k))

end Sys2Proof.Machine
end

