-- ==== Sys2Proof/Certificates/Slice0/Obligations.lean ====
section
/-! DEFINITION. The statements for the provers. Each is about the machine in every state, not about a program. -/

open Sys2Proof Sys2Proof.Machine

-- Encoding.

/-- 30_encoding.md section 1: every command word, and reserved words of 95_test_vectors.md 2.9, decode as tabled. -/
def Obligations.CommandWordsDecodeAsTabled : Prop :=
  decodeWord 0x00000000#32 = .nop ∧ decodeWord 0x00000001#32 = .poll ∧ decodeWord 0x00000002#32 = .drain ∧
    decodeWord 0x00000003#32 = .rbReset ∧ decodeWord 0x00000004#32 = .sdReset ∧ decodeWord 0x00000005#32 = .reset ∧
    decodeWord 0x00000006#32 = .start ∧ decodeWord 0x00000007#32 = .stop ∧
    decodeWord 0x00000008#32 = .reserved 0x00000008#32 ∧ decodeWord 0x00000011#32 = .reserved 0x00000011#32 ∧
    decodeWord 0xFFFFFFFF#32 = .reserved 0xFFFFFFFF#32 ∧
    decode [0x02#8, 0x00#8, 0x00#8, 0x00#8, 0x55#8] = .ok (.drain, [0x55#8])

/-- Tier 3 (a): for every instruction that has a word, decoding its bytes gives it back; and every word is the word of
what it decodes to, which is well formed (30_encoding.md R90 to R97). -/
def Obligations.DecodeEncodeRoundTrip : Prop :=
  (∀ (i : Instr) (bytes rest : List Byte), i.wellFormed = true → encode i = some bytes →
    decode (bytes ++ rest) = .ok (i, rest)) ∧
  (∀ w : Word, encodeWord (decodeWord w) = some w ∧ (decodeWord w).wellFormed = true)

/-- 30_encoding.md R97: a word below 8 is the command of the table, every other word is reserved. -/
def Obligations.WordsBelowEightAreTheCommands : Prop :=
  ∀ w : Word, (w.toNat < 8 → ∃ c : Command, decodeWord w = c.instr ∧ c.word = w) ∧
    (8 ≤ w.toNat → decodeWord w = .reserved w)

-- A step runs the instruction that comes next (log entries 1, 2, 7, 12).

/-- step is exec of the instruction the next input stands for, the input taken off, the acting agent and the clock pins
set; with no input the engine goes on with its command, and an idle machine stays as it is. -/
def Obligations.StepRunsTheNextInstruction : Prop :=
  (∀ (s : State) rest v, s.inputs = .hostWrite cmdOffset 4 v :: rest →
    step s = exec (decodeWord v) { s with inputs := rest, agent := .host }) ∧
  (∀ (s : State) rest now, s.inputs = .edge now :: rest →
    step s = exec .capture { s with inputs := rest, now := now, agent := .cap }) ∧
  (∀ (s : State) rest now c, s.inputs = .engine now :: rest → s.op = some c →
    step s = exec c.instr { s with inputs := rest, now := now, agent := .eng }) ∧
  (∀ (s : State) rest now, s.inputs = .engine now :: rest → s.op = none →
    step s = .next { s with inputs := rest, now := now }) ∧
  (∀ (s : State) c, s.inputs = [] → s.op = some c →
    step s = exec c.instr { s with now := Config.freeNow s.draws, draws := s.draws + 1, agent := .eng }) ∧
  (∀ s : State, s.inputs = [] → s.op = none → step s = .next s) ∧
  (∀ (s : State) nbits w i, decodeTableWord nbits w = some i →
    step (s.withFetchWord nbits w) = exec i { s with agent := .host })

-- Command words written by the host.

/-- 10_state.md R41: a read of CMD returns 0; a write while a command is in flight sets ERR_BUSY; otherwise a defined word
is accepted, and any other word sets ERR_CMD. That the word read stands in rdata is the model's choice (log entry 8). -/
def Obligations.CmdWriteAcceptsOrFlags : Prop :=
  ∀ s : State, ReadReturns s cmdOffset 0 ∧
    ∀ v : Word, WriteLeaves s cmdOffset v
      (if s.op ≠ none then { s with errBusy := true }
       else match commandOfWord v with
         | some c => { s with op := some c, ph := .accepted, rs := if c = .poll then s.resync else s.rs }
         | none => { s with errCmd := true })

/-- 30_encoding.md R93: every reserved word sets ERR_CMD and nothing else when OP = none, ERR_BUSY when busy. -/
def Obligations.ReservedWordOnlySetsItsFlag : Prop :=
  ∀ (v : Word) (s : State), 8 ≤ v.toNat → s.agent = .host → decodeWord v = .reserved v ∧
    (s.op = none → exec (.reserved v) s = .next { s with errCmd := true }) ∧
    (s.op ≠ none → exec (.reserved v) s = .next { s with errBusy := true })

/-- 60_exceptions.md R221: a CMD write while busy sets only ERR_BUSY, whatever the word. -/
def Obligations.BusyWriteSetsOnlyErrBusy : Prop :=
  ∀ (v : Word) (s : State), s.agent = .host → s.op ≠ none → exec (decodeWord v) s = .next { s with errBusy := true }

-- The commands that commit in one engine step.

/-- 43_streaming.md R187. -/
def Obligations.NopOnlyEndsItself : Prop :=
  AcceptsAs .nop .nop ∧ ∀ s, EngineHas .nop s → exec .nop s = .next { s with op := none }

/-- 40_ring_buffer.md R112. -/
def Obligations.StartArmsAndLoadsLast : Prop :=
  AcceptsAs .start .start ∧ ∀ s, EngineHas .start s →
    (s.armed = false →
      exec .start s = .next { s with last := lowBits s.params.tw s.now, armed := true, op := none }) ∧
    (s.armed = true → exec .start s = .next { s with op := none })

/-- 40_ring_buffer.md R113. -/
def Obligations.StopDisarms : Prop :=
  AcceptsAs .stop .stop ∧ ∀ s, EngineHas .stop s → exec .stop s = .next { s with armed := false, op := none }

/-- 40_ring_buffer.md R114. -/
def Obligations.RbResetRewindsBothCursors : Prop :=
  AcceptsAs .rbReset .rbReset ∧ ∀ s, EngineHas .rbReset s →
    exec .rbReset s = .next { s with w := 0, r := 0, op := none } ∧ rbCount s.params.n 0 0 = 0

/-- 43_streaming.md R185. -/
def Obligations.SdResetClearsTheDecoder : Prop :=
  AcceptsAs .sdReset .sdReset ∧ ∀ s, EngineHas .sdReset s →
    exec .sdReset s = .next { s with rem := [], dstate := .idle, result := 0, partialBits := 0, op := none }

/-- 43_streaming.md R186. -/
def Obligations.ResetDoesBothResets : Prop :=
  AcceptsAs .reset .reset ∧ ∀ s, EngineHas .reset s →
    exec .reset s =
      .next { s with w := 0, r := 0, rem := [], dstate := .idle, result := 0, partialBits := 0, op := none }

-- The drain.

/-- 40_ring_buffer.md R115: SNAP and READ, for DRAIN and for POLL. -/
def Obligations.DrainSnapsThenReads : Prop := SnapsThenReads .drain ∧ SnapsThenReads .poll

/-- 40_ring_buffer.md R118 (with R115, R116 and 43_streaming.md R181): accept, SNAP, READ and commit of DRAIN. When the samples fit,
REM is the plain append; otherwise it is the REM_CAP most recent samples and REM_OVF is set. -/
def Obligations.DrainCommitAppends : Prop :=
  AcceptsAs .drain .drain ∧ SnapsThenReads .drain ∧ ∀ s : State, EngineHas .drain s → s.ph = .snapped → s.j = s.nd →
    (s.rem.length + s.out.length ≤ s.params.remCap →
      exec .drain s = .next { s with r := s.w0, rem := s.rem ++ s.out, op := none }) ∧
    (s.rem.length + s.out.length > s.params.remCap →
      exec .drain s = .next { s with
        r := s.w0, remOvf := true, op := none
        rem := (s.rem ++ s.out).drop (s.rem.length + s.out.length - s.params.remCap) })

/-- 40_ring_buffer.md R117: a capture during a drain leaves the snapshot, the cursor and what was read; the next READ
returns the old sample of its slot, unless the capture went to that very slot, and then the new one. -/
def Obligations.CaptureDuringDrainReplacesOneSample : Prop :=
  ∀ s t : State, s.armed = true → exec .capture s = .next t →
    t.w0 = s.w0 ∧ t.nd = s.nd ∧ t.s0 = s.s0 ∧ t.j = s.j ∧ t.out = s.out ∧ t.ph = s.ph ∧ t.op = s.op ∧
    (s.w.toNat % s.params.n ≠ (s.s0.toNat + s.j) % s.params.n → t.nextSample = s.nextSample) ∧
    (s.w.toNat % s.params.n = (s.s0.toNat + s.j) % s.params.n → t.nextSample = tc32 s.interval)

/-- A DRAIN that no capture interrupts appends exactly the unread samples, oldest first, and leaves none unread; it takes
SNAP, one READ for each and the commit (10_state.md R27, 40_ring_buffer.md R115, R116). That the engine takes these steps
when no input is listed is the model's choice (log entry 1). -/
def Obligations.QuietDrainReturnsTheUnread : Prop :=
  ∀ s : State, s.params.Valid → s.inputs = [] → s.op = some .drain → s.ph = .accepted →
    ∃ t, core.run (rbCount s.params.n s.w s.r + 2) s = .next t ∧ t.op = none ∧ t.r = s.w ∧ t.w = s.w ∧
      t.rem = appended s.params.remCap s.rem s.unread ∧ t.unread = [] ∧
      t.result = s.result ∧ t.value = s.value ∧ t.partialBits = s.partialBits ∧ t.dstate = s.dstate

/-- 30_encoding.md R92, 92_eei_decisions.md D28: every accepted command commits, BUSY going to 0 with it. That with no further
inputs the engine takes the steps, so that N + 2 are enough, is the model's choice (log entry 1). -/
def Obligations.EveryCommandCommits : Prop :=
  ∀ (s : State) (c : Command), s.params.Valid → s.inputs = [] → s.op = some c → s.ph = .accepted →
    ∃ k t, k ≤ s.params.n + 2 ∧ core.run k s = .next t ∧ t.op = none

-- The capture.

/-- 40_ring_buffer.md R110: with ARMED = 1 the wrap-safe interval goes to slot[w mod N] and to no other slot, w advances,
LAST takes NOW, and nothing else changes; with ARMED = 0 nothing changes at all. -/
def Obligations.CaptureStoresTheInterval : Prop :=
  ∀ s : State,
    (s.armed = false → exec .capture s = .next s) ∧
    (s.armed = true → ∃ m t, t = { s with mem := m, w := s.w + 1, last := lowBits s.params.tw s.now } ∧
      exec .capture s = .next t ∧
      t.slot (s.w.toNat % s.params.n) =
        tc32 (sdiffTW s.params.tw (lowBits s.params.tw s.now).toNat s.last.toNat) ∧
      ∀ i, i ≠ s.w.toNat % s.params.n → t.slot i = s.slot i)

/-- 00_scope.md R9, 40_ring_buffer.md R110 (a) and (b), 93_implementation_defined.md U13: the stored sample is the signed
difference of NOW and LAST, the integer d with -2^(TW-1) <= d < 2^(TW-1) that brings LAST to NOW modulo 2^TW. So an elapsed
time below 2^(TW-1) is stored as it is, wrapped or not, and a longer one is stored as its alias, negative or not. -/
def Obligations.CaptureIsExactAcrossTheWrap : Prop :=
  ∀ (s : State) (d : Int), s.params.Valid → s.armed = true → -2 ^ (s.params.tw - 1) ≤ d → d < 2 ^ (s.params.tw - 1) →
    (s.now.toNat : Int) % 2 ^ s.params.tw = (s.last.toNat + d) % 2 ^ s.params.tw →
    ∃ t, exec .capture s = .next t ∧ int32 (t.slot (s.w.toNat % s.params.n)) = d

/-- 10_state.md R27, 40_ring_buffer.md R119: a capture makes its sample the newest unread one; when N were unread the
oldest is lost. When w comes round to r, 2^32 captures after it, the count of R27 is 0 again. -/
def Obligations.CaptureAppendsToTheUnread : Prop :=
  ∀ s t : State, s.params.Valid → s.armed = true → exec .capture s = .next t →
    t.unread =
      (if s.w + 1 = s.r then []
       else if s.unread.length < s.params.n then s.unread ++ [tc32 s.interval]
       else s.unread.drop 1 ++ [tc32 s.interval])

-- The matcher, the scanner, the decoder.

/-- 41_matcher_scanner.md R140, for the matcher that SCAN and DECODE use and for MATCH alone. That the value of a MATCH, SCAN
or DECODE evaluated alone stands in fnOut is the model's choice (log entry 9). -/
def Obligations.MatchIsTheToleranceFormula : Prop :=
  ∀ (m : Sample) (sp : Setpoint) (s : State),
    matchSample m sp = decide (|m.toInt - setpointUs sp| < setpointUs sp * 12032 / 32768) ∧
    exec (.matchOp m sp) s = .next { s with
      fnOut := .matched (decide (|m.toInt - setpointUs sp| < setpointUs sp * 12032 / 32768)) }

/-- 41_matcher_scanner.md R141: the window of each setpoint (fnOut: log entry 9). -/
def Obligations.MatchingWindows : Prop :=
  ∀ (m : Sample) (s yes : State), yes = { s with fnOut := .matched true } →
    (exec (.matchOp m .hdrMark) s = .next yes ↔ 5697 ≤ m.toInt ∧ m.toInt ≤ 12303) ∧
    (exec (.matchOp m .hdrSpace) s = .next yes ↔ 2849 ≤ m.toInt ∧ m.toInt ≤ 6151) ∧
    (exec (.matchOp m .rptSpace) s = .next yes ↔ 1425 ≤ m.toInt ∧ m.toInt ≤ 3075) ∧
    (exec (.matchOp m .oneSpace) s = .next yes ↔ 1071 ≤ m.toInt ∧ m.toInt ≤ 2309) ∧
    (exec (.matchOp m .bitMark) s = .next yes ↔ 356 ≤ m.toInt ∧ m.toInt ≤ 764) ∧
    (exec (.matchOp m .zeroSpace) s = .next yes ↔ 356 ≤ m.toInt ∧ m.toInt ≤ 764)

/-- 41_matcher_scanner.md R142: SCAN answers the smallest matching index, and NOT_FOUND exactly when nothing matches (fnOut:
log entry 9). -/
def Obligations.ScanFindsTheFirstMatch : Prop :=
  ∀ (seq : TimeSeq) (sp : Setpoint) (s : State), ∃ o, exec (.scan seq sp) s = .next { s with fnOut := .scanned o } ∧
    (o = none → ∀ m ∈ seq, matchSample m sp = false) ∧
    (∀ i, o = some i → i < seq.length ∧ matchSample (seq.getD i 0) sp = true ∧
      ∀ k, k < i → matchSample (seq.getD k 0) sp = false)

/-- 42_nec_decoder.md R161 steps 1 to 4 and R164: when DECODE answers SHORT, REPEAT and NO_MATCH; and DECODE alone answers
what a decode attempt uses. That it also answers for a sequence whose first element is no header mark, or that is empty, is
the model's choice (log entry 15), and so is fnOut (log entry 9). -/
def Obligations.DecodeChecksHeaderAndLength : Prop :=
  ∀ (seq : TimeSeq) (s : State), ∃ d, d = decodeSeq seq ∧ exec (.decode seq) s = .next { s with fnOut := .decoded d } ∧
    (seq.length < 3 → d = .short) ∧
    (3 ≤ seq.length →
      (matchSample (seq.getD 1 0) .rptSpace = true ∧ matchSample (seq.getD 2 0) .zeroSpace = true →
        d = .repeatFrame) ∧
      (¬ (matchSample (seq.getD 1 0) .rptSpace = true ∧ matchSample (seq.getD 2 0) .zeroSpace = true) →
        (matchSample (seq.getD 1 0) .hdrSpace = false → d = .noMatch) ∧
        (matchSample (seq.getD 1 0) .hdrSpace = true → seq.length < 66 → d = .short)))

/-- 42_nec_decoder.md R161 and R162: DECODE answers DATA(v) exactly when a header space and 32 pairs follow the first element,
without the repeat pattern, and the bits of the pairs, the first in bit 31, are v. The first element is not examined: that
DECODE also answers when it is no header mark is the model's choice (log entry 15), and so is fnOut (log entry 9). -/
def Obligations.DataExactlyForMatchingPairs : Prop :=
  ∀ (seq : TimeSeq) (v : Word) (s : State), exec (.decode seq) s = .next { s with fnOut := .decoded (.data v) } ↔
    dataShaped seq ∧ ∀ k < 32, bitAt seq k (codeBit v k)

/-- 42_nec_decoder.md R162 and R163: a fault at bit k means that the pairs before k were good, their bits stand in p, p is 0
below bit 32 - k, and the named interval of pair k is the first that fails; and each such failure is reported. That DECODE
also answers when the first element is no header mark is the model's choice (log entry 15), and so is fnOut (entry 9). -/
def Obligations.FaultExactlyAtTheFirstBadInterval : Prop :=
  ∀ (seq : TimeSeq) (k : Nat) (part : Part) (p : Word) (s : State),
    exec (.decode seq) s = .next { s with fnOut := .decoded (.fault k part p) } ↔
    dataShaped seq ∧ k < 32 ∧ (∀ i < k, bitAt seq i (codeBit p i)) ∧ (∀ b < 32 - k, p.getLsbD b = false) ∧
    match part with
    | .mark => matchSample (markAt seq k) .bitMark = false
    | .space => matchSample (markAt seq k) .bitMark = true ∧ matchSample (spaceAt seq k) .oneSpace = false ∧
        matchSample (spaceAt seq k) .zeroSpace = false

-- POLL.

/-- 43_streaming.md R182: ATTEMPT of an empty remainder is EMPTY, of one without a header mark NO_HEADER, and otherwise DECODE
of the suffix from the first header mark on. -/
def Obligations.AttemptDecodesFromTheFirstHeader : Prop :=
  ∀ t : TimeSeq,
    (attempt t = .empty ↔ t = []) ∧
    (attempt t = .noHeader ↔ t ≠ [] ∧ ∀ m ∈ t, matchSample m .hdrMark = false) ∧
    ∀ i d, attempt t = .found i d ↔
      i < t.length ∧ matchSample (t.getD i 0) .hdrMark = true ∧ (∀ k < i, matchSample (t.getD k 0) .hdrMark = false) ∧
        d = decodeSeq (t.drop i)

/-- 43_streaming.md R183: the accept of POLL, which samples CTRL.RESYNC, its SNAP and READ steps, and the whole commit, the
attempt being that of AttemptDecodesFromTheFirstHeader. -/
def Obligations.PollCommitRecordsTheOutcome : Prop :=
  AcceptsAs .poll .poll ∧ SnapsThenReads .poll ∧ ∀ s : State, EngineHas .poll s → s.ph = .snapped → s.j = s.nd →
    ∀ t, t = (if s.rem.length + s.out.length > s.params.remCap
        then (s.rem ++ s.out).drop (s.rem.length + s.out.length - s.params.remCap) else s.rem ++ s.out) →
    ∀ u : State, u = { s with
        r := s.w0, rem := t, op := none
        remOvf := s.remOvf || decide (s.rem.length + s.out.length > s.params.remCap) } →
    exec .poll s = .next (if s.dstate = .fault then u else
      match attempt t with
      | .empty => { u with result := 0x00000000#32, dstate := .idle }
      | .noHeader => { u with result := 0x00000004#32, dstate := .idle }
      | .found _ .short => { u with result := 0x00000008#32, dstate := .headerMatched }
      | .found _ .noMatch => { u with result := 0x0000000C#32, dstate := .headerMatched }
      | .found i .repeatFrame => { u with rem := t.drop (i + 3), result := 0x00000001#32, dstate := .idle }
      | .found i (.data v) => { u with rem := t.drop (i + 66), result := 0x00000002#32, value := v, dstate := .idle }
      | .found i (.fault k part p) => { u with
          result := BitVec.ofNat 32 (3 + 256 * k + (if part = .space then 8192 else 0)), partialBits := p
          dstate := if s.rs then .idle else .fault
          rem := if s.rs then t.drop (i + 1) else t })

/-- 95_test_vectors.md 1.3 for every code: a POLL over noise without a header mark, a canonical data frame and any rest
gives DATA with that code and leaves the rest as the remainder (43_streaming.md R183, 42_nec_decoder.md R161). -/
def Obligations.PollDecodesACanonicalFrame : Prop :=
  ∀ (s : State) (noise rest : TimeSeq) (v : Word), EngineHas .poll s → s.ph = .snapped → s.j = s.nd →
    s.dstate ≠ .fault → s.rem.length + s.out.length ≤ s.params.remCap →
    s.rem ++ s.out = noise ++ (frameIntervals v ++ rest) → (∀ m ∈ noise, matchSample m .hdrMark = false) →
    ∃ t, exec .poll s = .next t ∧ t.result = 0x00000002#32 ∧ t.value = v ∧ t.rem = rest ∧ t.dstate = .idle ∧
      t.partialBits = s.partialBits ∧ t.op = none

/-- 43_streaming.md R184 and R188: appending samples changes neither a fault nor a NO_MATCH that an attempt found. -/
def Obligations.FaultAndNoMatchArePersistent : Prop :=
  ∀ (t more : TimeSeq) (i : Nat),
    (∀ k part p, attempt t = .found i (.fault k part p) → attempt (t ++ more) = .found i (.fault k part p)) ∧
    (attempt t = .found i .noMatch → attempt (t ++ more) = .found i .noMatch)

/-- 43_streaming.md R189: after a SHORT attempt the same header is found again when more samples are appended, and then
the decoder sees the sequence whole: nothing is lost across polls. -/
def Obligations.ShortAttemptResumesWhole : Prop :=
  ∀ (t more : TimeSeq) (i : Nat), attempt t = .found i .short →
    attempt (t ++ more) = .found i (decodeSeq (t.drop i ++ more)) ∧
    ∀ v rest, t.drop i ++ more = frameIntervals v ++ rest → attempt (t ++ more) = .found i (.data v)

-- Frames.

/-- The host's write of any word to CMD changes OP, PH, RS, ERR_BUSY and ERR_CMD at most (10_state.md R41). -/
def Obligations.CmdWriteFrame : Prop :=
  ∀ (v : Word) (s t : State), s.agent = .host → exec (decodeWord v) s = .next t →
    SameMemory s t ∧ SameCapture s t ∧ SameDecoder s t ∧ SameModel s t ∧ t.fnOut = s.fnOut ∧
    t.resync = s.resync ∧ t.remOvf = s.remOvf ∧ t.w0 = s.w0 ∧ t.nd = s.nd ∧ t.s0 = s.s0 ∧ t.j = s.j ∧ t.out = s.out

/-- What the commits of NOP, START, STOP, RB_RESET, SD_RESET and RESET leave: NOP all but OP; START all but LAST, ARMED and
OP; STOP all but ARMED and OP; RB_RESET all but w, r and OP; SD_RESET all but REM, DSTATE, RESULT, PARTIAL and OP; RESET the
last two together (43_streaming.md R185 to R187, 40_ring_buffer.md R112 to R114). -/
def Obligations.ShortCommandFrame : Prop :=
  ∀ (c : Command) (s t : State), c ≠ .drain → c ≠ .poll → EngineHas c s → exec c.instr s = .next t →
    SameMemory s t ∧ SameFlags s t ∧ SameFlight s t ∧ SameModel s t ∧ t.fnOut = s.fnOut ∧ t.value = s.value ∧
    (c ≠ .start → t.last = s.last) ∧ (c ≠ .start → c ≠ .stop → t.armed = s.armed) ∧
    (c ≠ .rbReset → c ≠ .reset → t.w = s.w ∧ t.r = s.r) ∧
    (c ≠ .sdReset → c ≠ .reset → SameDecoder s t)

/-- What DRAIN and POLL leave in every engine step: memory, w, LAST, ARMED, CTRL, ERR_BUSY, ERR_CMD and RS always; r, REM
and REM_OVF before the commit; and by DRAIN also DSTATE, RESULT, VALUE and PARTIAL (40_ring_buffer.md R115 to R118). -/
def Obligations.DrainAndPollFrame : Prop :=
  ∀ (c : Command) (s t : State), c = .drain ∨ c = .poll → EngineHas c s → exec c.instr s = .next t →
    SameMemory s t ∧ SameModel s t ∧ t.fnOut = s.fnOut ∧ t.w = s.w ∧ t.last = s.last ∧ t.armed = s.armed ∧
    t.resync = s.resync ∧ t.errBusy = s.errBusy ∧ t.errCmd = s.errCmd ∧ t.rs = s.rs ∧
    (t.op ≠ none → t.r = s.r ∧ t.remOvf = s.remOvf ∧ SameDecoder s t) ∧
    (c = .drain → t.dstate = s.dstate ∧ t.result = s.result ∧ t.value = s.value ∧ t.partialBits = s.partialBits)

/-- CAPTURE leaves everything but w, LAST and the four bytes at the address it stores to; unarmed, those too
(40_ring_buffer.md R110). That a slot is four bytes in lane order is read from R50 and R73 (log entry 10). -/
def Obligations.CaptureFrame : Prop :=
  ∀ s t : State, exec .capture s = .next t →
    t.r = s.r ∧ t.armed = s.armed ∧ SameDecoder s t ∧ SameFlags s t ∧ SameFlight s t ∧ t.op = s.op ∧ SameModel s t ∧
    t.fnOut = s.fnOut ∧
    (∀ a, s.storeAddr = a → ∀ a', a' < a ∨ a + 4 ≤ a' → Memory.byte t.era t.mem a' = Memory.byte s.era s.mem a') ∧
    (s.armed = false → SameMemory s t ∧ t.w = s.w ∧ t.last = s.last)

/-- MATCH, SCAN and DECODE write no state of NECRX (41_matcher_scanner.md R143, 42_nec_decoder.md R161; fnOut: log entry 9). -/
def Obligations.FunctionsFrame : Prop :=
  ∀ (m : Sample) (sp : Setpoint) (seq : TimeSeq) (i : Instr) (s t : State),
    i = .matchOp m sp ∨ i = .scan seq sp ∨ i = .decode seq → exec i s = .next t →
    SameMemory s t ∧ SameCapture s t ∧ SameDecoder s t ∧ SameFlags s t ∧ SameFlight s t ∧ t.op = s.op ∧ SameModel s t

-- The host port.

/-- 10_state.md R40 and R42 to R49: what the registers of the map read as. That the word stands in rdata is the model's
choice (log entry 8). -/
def Obligations.RegisterReads : Prop :=
  ∀ s : State, s.params.Valid → s.rem.length ≤ s.params.remCap →
    ReadReturns s 0x00000 (BitVec.ofNat 32 (bitNat s.resync)) ∧
    ReadReturns s 0x00008 (BitVec.ofNat 32 (bitNat s.armed + 2 * bitNat s.op.isSome +
      4 * (match s.dstate with | .idle => 0 | .headerMatched => 1 | .fault => 2) +
      16 * bitNat s.errBusy + 32 * bitNat s.errCmd + 64 * bitNat s.remOvf)) ∧
    ReadReturns s 0x0000C s.result ∧ ReadReturns s 0x00010 s.value ∧ ReadReturns s 0x00014 s.partialBits ∧
    ReadReturns s 0x00018 s.w ∧ ReadReturns s 0x0001C s.r ∧
    ReadReturns s 0x00020 (BitVec.ofNat 32 (min (s.w - s.r).toNat s.params.n)) ∧
    ReadReturns s 0x00024 (BitVec.ofNat 32 s.rem.length) ∧ ReadReturns s 0x00028 s.last ∧
    ReadReturns s 0x0002C (BitVec.ofNat 32 (s.params.log2N + 32 * s.params.tw + 65536 * s.params.remCap))

/-- 10_state.md R50 and R51: the two windows (rdata: log entry 8). -/
def Obligations.WindowReads : Prop :=
  ∀ (s : State) (i : Nat), i < 16384 →
    (i < s.params.n → ReadReturns s (BitVec.ofNat 18 (0x10000 + 4 * i)) (s.slot i)) ∧
    (s.params.n ≤ i → ReadReturns s (BitVec.ofNat 18 (0x10000 + 4 * i)) 0) ∧
    (∀ h : i < s.rem.length, ReadReturns s (BitVec.ofNat 18 (0x20000 + 4 * i)) (s.rem[i]'h)) ∧
    (s.rem.length ≤ i → ReadReturns s (BitVec.ofNat 18 (0x20000 + 4 * i)) 0)

/-- 20_memory.md R70, R76: an aligned offset the map does not list reads 0, and a write at any offset but CTRL, CMD and
STATUS has no effect (rdata: log entry 8). -/
def Obligations.UnlistedOffsetsReadZeroAndIgnoreWrites : Prop :=
  ∀ (s : State) (off : BitVec 18) (v : Word), off.toNat % 4 = 0 →
    ((0x00030 ≤ off.toNat ∧ off.toNat < 0x10000) ∨ 0x30000 ≤ off.toNat → ReadReturns s off 0) ∧
    (off ≠ 0x00000 → off ≠ 0x00004 → off ≠ 0x00008 → WriteLeaves s off v s)

/-- 10_state.md R40 and R42: a write to CTRL sets RESYNC to bit 0; a write to STATUS clears each of ERR_BUSY, ERR_CMD and
REM_OVF whose bit is 1, and leaves the others. -/
def Obligations.CtrlAndStatusWrites : Prop :=
  ∀ (s : State) (v : Word),
    WriteLeaves s 0x00000 v { s with resync := decide (v.toNat % 2 = 1) } ∧
    WriteLeaves s 0x00008 v { s with
      errBusy := if v.getLsbD 4 then false else s.errBusy
      errCmd := if v.getLsbD 5 then false else s.errCmd
      remOvf := if v.getLsbD 6 then false else s.remOvf }

/-- 20_memory.md R71 and R72: an access of another width, or at an unaligned offset, is refused. The names of the
two refusals, and that the width is looked at first, are the model's (log entry 13). -/
def Obligations.UndefinedAccessesAreRefused : Prop :=
  ∀ (s : State) (off : BitVec 18) (width : Nat) (v : Word) (rest : List Input),
    s.inputs = .hostRead off width :: rest ∨ s.inputs = .hostWrite off width v :: rest →
    (width ≠ 4 → step s = .refused .accessWidth) ∧
    (width = 4 → off.toNat % 4 ≠ 0 → step s = .refused .misaligned)

/-- 20_memory.md R74: no host read changes any state of NECRX, whatever its offset, and the same read right after
returns the same word (rdata: log entry 8). -/
def Obligations.ReadsHaveNoSideEffect : Prop :=
  ∀ (s t : State) (off : BitVec 18) (width : Nat) (rest : List Input),
    s.inputs = .hostRead off width :: rest → step s = .next t →
    SameMemory s t ∧ SameCapture s t ∧ SameDecoder s t ∧ SameFlags s t ∧ SameFlight s t ∧ t.op = s.op ∧
    t.params = s.params ∧
    ∀ u : State, u = { t with inputs := .hostRead off width :: rest } → ∃ u', step u = .next u' ∧ u'.rdata = t.rdata

-- RST and the state after reset.

/-- 70_reset_and_hazards.md R240: RST sets every piece of state the spec gives a reset value for, and abandons a command
in flight; LAST has TW bits. -/
def Obligations.RstResetsEverything : Prop :=
  ∀ (s : State) (rest : List Input), s.inputs = .rst :: rest → ∃ t, step s = .next t ∧
    t.w = 0 ∧ t.r = 0 ∧ t.armed = false ∧ t.rem = [] ∧ t.dstate = .idle ∧ t.result = 0 ∧ t.value = 0 ∧
    t.partialBits = 0 ∧ t.resync = false ∧ t.errBusy = false ∧ t.errCmd = false ∧ t.remOvf = false ∧ t.op = none ∧
    t.last.toNat < 2 ^ s.params.tw

/-- 10_state.md R53: the values the table gives, in State.reset and for every choice of parameters. -/
def Obligations.ResetHoldsTheTabledValues : Prop :=
  ∀ s : State, (s = State.reset ∨ ∃ p, s = State.resetWith p) →
    s.w = 0 ∧ s.r = 0 ∧ s.armed = false ∧ s.rem = [] ∧ s.dstate = .idle ∧ s.result = 0 ∧ s.value = 0 ∧
    s.partialBits = 0 ∧ s.resync = false ∧ s.errBusy = false ∧ s.errCmd = false ∧ s.remOvf = false ∧ s.op = none

/-- The invariant holds at reset, for every legal choice of parameters. State.reset's own parameters and its LAST are the
model's choices (log entries 3 and 5). -/
def Obligations.InvHoldsAtReset : Prop :=
  State.reset.Inv ∧ ∀ p : Params, p.Valid → (State.resetWith p).Inv

-- The whole machine.

/-- Tier 3 (b): every step, whatever its agent, keeps the invariant: the slot store stays canonical and within the N slots,
REM within REM_CAP, LAST within TW bits, RESULT in its format and in accord with DSTATE and PARTIAL, and the in-flight
fields of a drain in accord with the cursors (10_state.md R24 to R37, R43). -/
def Obligations.StepKeepsInv : Prop := ∀ s t : State, s.Inv → step s = .next t → t.Inv

/-- 40_ring_buffer.md R115, R116: under the invariant a step never stops with a fault. -/
def Obligations.StepNeverFaultsUnderInv : Prop := ∀ (s : State) (f : Fault), s.Inv → step s ≠ .fault f

/-- 10_state.md R25 and R26: w changes only by an armed CAPTURE, which adds 1, and by RB_RESET, RESET and RST, which make it
0; r changes only by the commit of DRAIN or POLL, which makes it W0, and by the same three. -/
def Obligations.WhoMovesTheCursors : Prop :=
  ∀ s t : State, step s = .next t →
    (t.w ≠ s.w → ((∃ now rest, s.inputs = .edge now :: rest) ∧ s.armed = true ∧ t.w = s.w + 1) ∨
      (t.w = 0 ∧ (s.op = some .rbReset ∨ s.op = some .reset ∨ ∃ rest, s.inputs = .rst :: rest))) ∧
    (t.r ≠ s.r → (t.r = s.w0 ∧ (s.op = some .drain ∨ s.op = some .poll) ∧ t.op = none) ∨
      (t.r = 0 ∧ (s.op = some .rbReset ∨ s.op = some .reset ∨ ∃ rest, s.inputs = .rst :: rest)))

/-- 10_state.md R24, 20_memory.md R78: a slot changes only by an armed CAPTURE, and only slot[w mod N]; RST leaves the
slots unspecified. -/
def Obligations.OnlyCaptureWritesASlot : Prop :=
  ∀ (s t : State) (i : Nat), step s = .next t → t.slot i ≠ s.slot i →
    (∃ rest, s.inputs = .rst :: rest) ∨
    ((∃ now rest, s.inputs = .edge now :: rest) ∧ s.armed = true ∧ i = s.w.toNat % s.params.n)

/-- 10_state.md R33: VALUE changes only by a POLL that emits Data (RESULT then shows it) and by RST. -/
def Obligations.OnlyDataChangesValue : Prop :=
  ∀ s t : State, step s = .next t → t.value ≠ s.value →
    (∃ rest, s.inputs = .rst :: rest) ∨ (s.op = some .poll ∧ t.op = none ∧ t.result = 0x00000002#32)

/-- 60_exceptions.md R224: only SD_RESET, RESET and RST leave the FAULT state. -/
def Obligations.OnlyResetsLeaveFault : Prop :=
  ∀ s t : State, step s = .next t → s.dstate = .fault → t.dstate ≠ .fault →
    t.dstate = .idle ∧
    ((∃ rest, s.inputs = .rst :: rest) ∨ ((s.op = some .sdReset ∨ s.op = some .reset) ∧ t.op = none))

/-- 10_state.md R36: a sticky flag is cleared only by RST or by a host write to STATUS with its bit 1. -/
def Obligations.StickyFlagsStay : Prop :=
  ∀ s t : State, step s = .next t → ∀ b : Nat,
    (b = 4 ∧ s.errBusy = true ∧ t.errBusy = false) ∨ (b = 5 ∧ s.errCmd = true ∧ t.errCmd = false) ∨
      (b = 6 ∧ s.remOvf = true ∧ t.remOvf = false) →
    (∃ rest, s.inputs = .rst :: rest) ∨ ∃ v rest, s.inputs = .hostWrite 0x00008 4 v :: rest ∧ v.getLsbD b = true

/-- 10_state.md R28, R29 and R52: LAST changes only by CAPTURE, START and RST; ARMED only by START, STOP and RST. -/
def Obligations.WhoWritesLastAndArmed : Prop :=
  ∀ s t : State, step s = .next t →
    (t.last ≠ s.last → (∃ rest, s.inputs = .rst :: rest) ∨ ((∃ now rest, s.inputs = .edge now :: rest) ∧ s.armed = true) ∨
      (s.op = some .start ∧ t.op = none ∧ s.armed = false)) ∧
    (t.armed ≠ s.armed → (∃ rest, s.inputs = .rst :: rest) ∨ (s.op = some .start ∧ t.op = none ∧ t.armed = true) ∨
      (s.op = some .stop ∧ t.op = none ∧ t.armed = false))

/-- 10_state.md R39: while a command stays in flight RESULT, VALUE, PARTIAL, DSTATE and REM keep their values, whoever
steps. -/
def Obligations.ResultsAppearOnlyAtTheCommit : Prop :=
  ∀ s t : State, step s = .next t → t.op ≠ none → SameDecoder s t

/-- The parameters are constants of the machine: no step changes them (10_state.md R49). -/
def Obligations.ParametersAreConstant : Prop := ∀ s t : State, step s = .next t → t.params = s.params
end

