-- ==== Sys2Proof/Laws/State.lean ====
section
/-! SUPPORT. For each named update of State, what every field is after it. -/

namespace Sys2Proof.Machine

@[simp] theorem State.clearFlags_fields (s : State) (v : Word) :
    (s.clearFlags v).params = s.params ∧ (s.clearFlags v).mem = s.mem ∧ (s.clearFlags v).w = s.w ∧
    (s.clearFlags v).r = s.r ∧ (s.clearFlags v).last = s.last ∧ (s.clearFlags v).armed = s.armed ∧
    (s.clearFlags v).rem = s.rem ∧ (s.clearFlags v).dstate = s.dstate ∧ (s.clearFlags v).result = s.result ∧
    (s.clearFlags v).value = s.value ∧ (s.clearFlags v).partialBits = s.partialBits ∧
    (s.clearFlags v).resync = s.resync ∧ (s.clearFlags v).errBusy = (s.errBusy && !v.getLsbD 4) ∧
    (s.clearFlags v).errCmd = (s.errCmd && !v.getLsbD 5) ∧ (s.clearFlags v).remOvf = (s.remOvf && !v.getLsbD 6) ∧
    (s.clearFlags v).op = s.op ∧ (s.clearFlags v).ph = s.ph ∧ (s.clearFlags v).w0 = s.w0 ∧
    (s.clearFlags v).nd = s.nd ∧ (s.clearFlags v).s0 = s.s0 ∧ (s.clearFlags v).j = s.j ∧
    (s.clearFlags v).out = s.out ∧ (s.clearFlags v).rs = s.rs ∧ (s.clearFlags v).now = s.now ∧
    (s.clearFlags v).inputs = s.inputs ∧ (s.clearFlags v).agent = s.agent ∧ (s.clearFlags v).rdata = s.rdata ∧
    (s.clearFlags v).fnOut = s.fnOut ∧ (s.clearFlags v).draws = s.draws ∧ (s.clearFlags v).era = s.era :=
  ⟨rfl, rfl, rfl, rfl, rfl, rfl, rfl, rfl, rfl, rfl, rfl, rfl, rfl, rfl, rfl, rfl, rfl, rfl, rfl, rfl, rfl, rfl, rfl, rfl, rfl, rfl, rfl, rfl, rfl, rfl⟩

@[simp] theorem State.writeCtrl_fields (s : State) (v : Word) :
    (s.writeCtrl v).params = s.params ∧ (s.writeCtrl v).mem = s.mem ∧ (s.writeCtrl v).w = s.w ∧
    (s.writeCtrl v).r = s.r ∧ (s.writeCtrl v).last = s.last ∧ (s.writeCtrl v).armed = s.armed ∧
    (s.writeCtrl v).rem = s.rem ∧ (s.writeCtrl v).dstate = s.dstate ∧ (s.writeCtrl v).result = s.result ∧
    (s.writeCtrl v).value = s.value ∧ (s.writeCtrl v).partialBits = s.partialBits ∧
    (s.writeCtrl v).resync = v.getLsbD 0 ∧ (s.writeCtrl v).errBusy = s.errBusy ∧ (s.writeCtrl v).errCmd = s.errCmd ∧
    (s.writeCtrl v).remOvf = s.remOvf ∧ (s.writeCtrl v).op = s.op ∧ (s.writeCtrl v).ph = s.ph ∧
    (s.writeCtrl v).w0 = s.w0 ∧ (s.writeCtrl v).nd = s.nd ∧ (s.writeCtrl v).s0 = s.s0 ∧ (s.writeCtrl v).j = s.j ∧
    (s.writeCtrl v).out = s.out ∧ (s.writeCtrl v).rs = s.rs ∧ (s.writeCtrl v).now = s.now ∧
    (s.writeCtrl v).inputs = s.inputs ∧ (s.writeCtrl v).agent = s.agent ∧ (s.writeCtrl v).rdata = s.rdata ∧
    (s.writeCtrl v).fnOut = s.fnOut ∧ (s.writeCtrl v).draws = s.draws ∧ (s.writeCtrl v).era = s.era :=
  ⟨rfl, rfl, rfl, rfl, rfl, rfl, rfl, rfl, rfl, rfl, rfl, rfl, rfl, rfl, rfl, rfl, rfl, rfl, rfl, rfl, rfl, rfl, rfl, rfl, rfl, rfl, rfl, rfl, rfl, rfl⟩

@[simp] theorem State.storeSample_fields (s : State) (v : Sample) :
    (s.storeSample v).params = s.params ∧ (s.storeSample v).mem = Memory.putWord s.mem s.storeAddr v ∧
    (s.storeSample v).w = s.w ∧ (s.storeSample v).r = s.r ∧ (s.storeSample v).last = s.last ∧
    (s.storeSample v).armed = s.armed ∧ (s.storeSample v).rem = s.rem ∧ (s.storeSample v).dstate = s.dstate ∧
    (s.storeSample v).result = s.result ∧ (s.storeSample v).value = s.value ∧
    (s.storeSample v).partialBits = s.partialBits ∧ (s.storeSample v).resync = s.resync ∧
    (s.storeSample v).errBusy = s.errBusy ∧ (s.storeSample v).errCmd = s.errCmd ∧
    (s.storeSample v).remOvf = s.remOvf ∧ (s.storeSample v).op = s.op ∧ (s.storeSample v).ph = s.ph ∧
    (s.storeSample v).w0 = s.w0 ∧ (s.storeSample v).nd = s.nd ∧ (s.storeSample v).s0 = s.s0 ∧
    (s.storeSample v).j = s.j ∧ (s.storeSample v).out = s.out ∧ (s.storeSample v).rs = s.rs ∧
    (s.storeSample v).now = s.now ∧ (s.storeSample v).inputs = s.inputs ∧ (s.storeSample v).agent = s.agent ∧
    (s.storeSample v).rdata = s.rdata ∧ (s.storeSample v).fnOut = s.fnOut ∧ (s.storeSample v).draws = s.draws ∧
    (s.storeSample v).era = s.era :=
  ⟨rfl, rfl, rfl, rfl, rfl, rfl, rfl, rfl, rfl, rfl, rfl, rfl, rfl, rfl, rfl, rfl, rfl, rfl, rfl, rfl, rfl, rfl, rfl, rfl, rfl, rfl, rfl, rfl, rfl, rfl⟩

@[simp] theorem State.advanceWrite_fields (s : State) (t : Word) :
    (s.advanceWrite t).params = s.params ∧ (s.advanceWrite t).mem = s.mem ∧ (s.advanceWrite t).w = s.w + 1 ∧
    (s.advanceWrite t).r = s.r ∧ (s.advanceWrite t).last = t ∧ (s.advanceWrite t).armed = s.armed ∧
    (s.advanceWrite t).rem = s.rem ∧ (s.advanceWrite t).dstate = s.dstate ∧ (s.advanceWrite t).result = s.result ∧
    (s.advanceWrite t).value = s.value ∧ (s.advanceWrite t).partialBits = s.partialBits ∧
    (s.advanceWrite t).resync = s.resync ∧ (s.advanceWrite t).errBusy = s.errBusy ∧
    (s.advanceWrite t).errCmd = s.errCmd ∧ (s.advanceWrite t).remOvf = s.remOvf ∧ (s.advanceWrite t).op = s.op ∧
    (s.advanceWrite t).ph = s.ph ∧ (s.advanceWrite t).w0 = s.w0 ∧ (s.advanceWrite t).nd = s.nd ∧
    (s.advanceWrite t).s0 = s.s0 ∧ (s.advanceWrite t).j = s.j ∧ (s.advanceWrite t).out = s.out ∧
    (s.advanceWrite t).rs = s.rs ∧ (s.advanceWrite t).now = s.now ∧ (s.advanceWrite t).inputs = s.inputs ∧
    (s.advanceWrite t).agent = s.agent ∧ (s.advanceWrite t).rdata = s.rdata ∧ (s.advanceWrite t).fnOut = s.fnOut ∧
    (s.advanceWrite t).draws = s.draws ∧ (s.advanceWrite t).era = s.era :=
  ⟨rfl, rfl, rfl, rfl, rfl, rfl, rfl, rfl, rfl, rfl, rfl, rfl, rfl, rfl, rfl, rfl, rfl, rfl, rfl, rfl, rfl, rfl, rfl, rfl, rfl, rfl, rfl, rfl, rfl, rfl⟩

@[simp] theorem State.rewindRing_fields (s : State) :
    (s.rewindRing).params = s.params ∧ (s.rewindRing).mem = s.mem ∧ (s.rewindRing).w = 0 ∧ (s.rewindRing).r = 0 ∧
    (s.rewindRing).last = s.last ∧ (s.rewindRing).armed = s.armed ∧ (s.rewindRing).rem = s.rem ∧
    (s.rewindRing).dstate = s.dstate ∧ (s.rewindRing).result = s.result ∧ (s.rewindRing).value = s.value ∧
    (s.rewindRing).partialBits = s.partialBits ∧ (s.rewindRing).resync = s.resync ∧
    (s.rewindRing).errBusy = s.errBusy ∧ (s.rewindRing).errCmd = s.errCmd ∧ (s.rewindRing).remOvf = s.remOvf ∧
    (s.rewindRing).op = s.op ∧ (s.rewindRing).ph = s.ph ∧ (s.rewindRing).w0 = s.w0 ∧ (s.rewindRing).nd = s.nd ∧
    (s.rewindRing).s0 = s.s0 ∧ (s.rewindRing).j = s.j ∧ (s.rewindRing).out = s.out ∧ (s.rewindRing).rs = s.rs ∧
    (s.rewindRing).now = s.now ∧ (s.rewindRing).inputs = s.inputs ∧ (s.rewindRing).agent = s.agent ∧
    (s.rewindRing).rdata = s.rdata ∧ (s.rewindRing).fnOut = s.fnOut ∧ (s.rewindRing).draws = s.draws ∧
    (s.rewindRing).era = s.era :=
  ⟨rfl, rfl, rfl, rfl, rfl, rfl, rfl, rfl, rfl, rfl, rfl, rfl, rfl, rfl, rfl, rfl, rfl, rfl, rfl, rfl, rfl, rfl, rfl, rfl, rfl, rfl, rfl, rfl, rfl, rfl⟩

@[simp] theorem State.enter_fields (s : State) (a : Agent) :
    (s.enter a).params = s.params ∧ (s.enter a).mem = s.mem ∧ (s.enter a).w = s.w ∧ (s.enter a).r = s.r ∧
    (s.enter a).last = s.last ∧ (s.enter a).armed = s.armed ∧ (s.enter a).rem = s.rem ∧
    (s.enter a).dstate = s.dstate ∧ (s.enter a).result = s.result ∧ (s.enter a).value = s.value ∧
    (s.enter a).partialBits = s.partialBits ∧ (s.enter a).resync = s.resync ∧ (s.enter a).errBusy = s.errBusy ∧
    (s.enter a).errCmd = s.errCmd ∧ (s.enter a).remOvf = s.remOvf ∧ (s.enter a).op = s.op ∧ (s.enter a).ph = s.ph ∧
    (s.enter a).w0 = s.w0 ∧ (s.enter a).nd = s.nd ∧ (s.enter a).s0 = s.s0 ∧ (s.enter a).j = s.j ∧
    (s.enter a).out = s.out ∧ (s.enter a).rs = s.rs ∧ (s.enter a).now = s.now ∧ (s.enter a).inputs = s.inputs ∧
    (s.enter a).agent = a ∧ (s.enter a).rdata = s.rdata ∧ (s.enter a).fnOut = s.fnOut ∧ (s.enter a).draws = s.draws ∧
    (s.enter a).era = s.era :=
  ⟨rfl, rfl, rfl, rfl, rfl, rfl, rfl, rfl, rfl, rfl, rfl, rfl, rfl, rfl, rfl, rfl, rfl, rfl, rfl, rfl, rfl, rfl, rfl, rfl, rfl, rfl, rfl, rfl, rfl, rfl⟩

@[simp] theorem State.setNow_fields (s : State) (t : Word) :
    (s.setNow t).params = s.params ∧ (s.setNow t).mem = s.mem ∧ (s.setNow t).w = s.w ∧ (s.setNow t).r = s.r ∧
    (s.setNow t).last = s.last ∧ (s.setNow t).armed = s.armed ∧ (s.setNow t).rem = s.rem ∧
    (s.setNow t).dstate = s.dstate ∧ (s.setNow t).result = s.result ∧ (s.setNow t).value = s.value ∧
    (s.setNow t).partialBits = s.partialBits ∧ (s.setNow t).resync = s.resync ∧ (s.setNow t).errBusy = s.errBusy ∧
    (s.setNow t).errCmd = s.errCmd ∧ (s.setNow t).remOvf = s.remOvf ∧ (s.setNow t).op = s.op ∧
    (s.setNow t).ph = s.ph ∧ (s.setNow t).w0 = s.w0 ∧ (s.setNow t).nd = s.nd ∧ (s.setNow t).s0 = s.s0 ∧
    (s.setNow t).j = s.j ∧ (s.setNow t).out = s.out ∧ (s.setNow t).rs = s.rs ∧ (s.setNow t).now = t ∧
    (s.setNow t).inputs = s.inputs ∧ (s.setNow t).agent = s.agent ∧ (s.setNow t).rdata = s.rdata ∧
    (s.setNow t).fnOut = s.fnOut ∧ (s.setNow t).draws = s.draws ∧ (s.setNow t).era = s.era :=
  ⟨rfl, rfl, rfl, rfl, rfl, rfl, rfl, rfl, rfl, rfl, rfl, rfl, rfl, rfl, rfl, rfl, rfl, rfl, rfl, rfl, rfl, rfl, rfl, rfl, rfl, rfl, rfl, rfl, rfl, rfl⟩

@[simp] theorem State.drawNow_fields (s : State) :
    (s.drawNow).params = s.params ∧ (s.drawNow).mem = s.mem ∧ (s.drawNow).w = s.w ∧ (s.drawNow).r = s.r ∧
    (s.drawNow).last = s.last ∧ (s.drawNow).armed = s.armed ∧ (s.drawNow).rem = s.rem ∧
    (s.drawNow).dstate = s.dstate ∧ (s.drawNow).result = s.result ∧ (s.drawNow).value = s.value ∧
    (s.drawNow).partialBits = s.partialBits ∧ (s.drawNow).resync = s.resync ∧ (s.drawNow).errBusy = s.errBusy ∧
    (s.drawNow).errCmd = s.errCmd ∧ (s.drawNow).remOvf = s.remOvf ∧ (s.drawNow).op = s.op ∧ (s.drawNow).ph = s.ph ∧
    (s.drawNow).w0 = s.w0 ∧ (s.drawNow).nd = s.nd ∧ (s.drawNow).s0 = s.s0 ∧ (s.drawNow).j = s.j ∧
    (s.drawNow).out = s.out ∧ (s.drawNow).rs = s.rs ∧ (s.drawNow).now = Config.freeNow s.draws ∧
    (s.drawNow).inputs = s.inputs ∧ (s.drawNow).agent = s.agent ∧ (s.drawNow).rdata = s.rdata ∧
    (s.drawNow).fnOut = s.fnOut ∧ (s.drawNow).draws = s.draws + 1 ∧ (s.drawNow).era = s.era :=
  ⟨rfl, rfl, rfl, rfl, rfl, rfl, rfl, rfl, rfl, rfl, rfl, rfl, rfl, rfl, rfl, rfl, rfl, rfl, rfl, rfl, rfl, rfl, rfl, rfl, rfl, rfl, rfl, rfl, rfl, rfl⟩

@[simp] theorem State.setErrBusy_fields (s : State) :
    (s.setErrBusy).params = s.params ∧ (s.setErrBusy).mem = s.mem ∧ (s.setErrBusy).w = s.w ∧ (s.setErrBusy).r = s.r ∧
    (s.setErrBusy).last = s.last ∧ (s.setErrBusy).armed = s.armed ∧ (s.setErrBusy).rem = s.rem ∧
    (s.setErrBusy).dstate = s.dstate ∧ (s.setErrBusy).result = s.result ∧ (s.setErrBusy).value = s.value ∧
    (s.setErrBusy).partialBits = s.partialBits ∧ (s.setErrBusy).resync = s.resync ∧ (s.setErrBusy).errBusy = true ∧
    (s.setErrBusy).errCmd = s.errCmd ∧ (s.setErrBusy).remOvf = s.remOvf ∧ (s.setErrBusy).op = s.op ∧
    (s.setErrBusy).ph = s.ph ∧ (s.setErrBusy).w0 = s.w0 ∧ (s.setErrBusy).nd = s.nd ∧ (s.setErrBusy).s0 = s.s0 ∧
    (s.setErrBusy).j = s.j ∧ (s.setErrBusy).out = s.out ∧ (s.setErrBusy).rs = s.rs ∧ (s.setErrBusy).now = s.now ∧
    (s.setErrBusy).inputs = s.inputs ∧ (s.setErrBusy).agent = s.agent ∧ (s.setErrBusy).rdata = s.rdata ∧
    (s.setErrBusy).fnOut = s.fnOut ∧ (s.setErrBusy).draws = s.draws ∧ (s.setErrBusy).era = s.era :=
  ⟨rfl, rfl, rfl, rfl, rfl, rfl, rfl, rfl, rfl, rfl, rfl, rfl, rfl, rfl, rfl, rfl, rfl, rfl, rfl, rfl, rfl, rfl, rfl, rfl, rfl, rfl, rfl, rfl, rfl, rfl⟩

@[simp] theorem State.setErrCmd_fields (s : State) :
    (s.setErrCmd).params = s.params ∧ (s.setErrCmd).mem = s.mem ∧ (s.setErrCmd).w = s.w ∧ (s.setErrCmd).r = s.r ∧
    (s.setErrCmd).last = s.last ∧ (s.setErrCmd).armed = s.armed ∧ (s.setErrCmd).rem = s.rem ∧
    (s.setErrCmd).dstate = s.dstate ∧ (s.setErrCmd).result = s.result ∧ (s.setErrCmd).value = s.value ∧
    (s.setErrCmd).partialBits = s.partialBits ∧ (s.setErrCmd).resync = s.resync ∧ (s.setErrCmd).errBusy = s.errBusy ∧
    (s.setErrCmd).errCmd = true ∧ (s.setErrCmd).remOvf = s.remOvf ∧ (s.setErrCmd).op = s.op ∧
    (s.setErrCmd).ph = s.ph ∧ (s.setErrCmd).w0 = s.w0 ∧ (s.setErrCmd).nd = s.nd ∧ (s.setErrCmd).s0 = s.s0 ∧
    (s.setErrCmd).j = s.j ∧ (s.setErrCmd).out = s.out ∧ (s.setErrCmd).rs = s.rs ∧ (s.setErrCmd).now = s.now ∧
    (s.setErrCmd).inputs = s.inputs ∧ (s.setErrCmd).agent = s.agent ∧ (s.setErrCmd).rdata = s.rdata ∧
    (s.setErrCmd).fnOut = s.fnOut ∧ (s.setErrCmd).draws = s.draws ∧ (s.setErrCmd).era = s.era :=
  ⟨rfl, rfl, rfl, rfl, rfl, rfl, rfl, rfl, rfl, rfl, rfl, rfl, rfl, rfl, rfl, rfl, rfl, rfl, rfl, rfl, rfl, rfl, rfl, rfl, rfl, rfl, rfl, rfl, rfl, rfl⟩

@[simp] theorem State.take_fields (s : State) (c : Command) :
    (s.take c).params = s.params ∧ (s.take c).mem = s.mem ∧ (s.take c).w = s.w ∧ (s.take c).r = s.r ∧
    (s.take c).last = s.last ∧ (s.take c).armed = s.armed ∧ (s.take c).rem = s.rem ∧ (s.take c).dstate = s.dstate ∧
    (s.take c).result = s.result ∧ (s.take c).value = s.value ∧ (s.take c).partialBits = s.partialBits ∧
    (s.take c).resync = s.resync ∧ (s.take c).errBusy = s.errBusy ∧ (s.take c).errCmd = s.errCmd ∧
    (s.take c).remOvf = s.remOvf ∧ (s.take c).op = some c ∧ (s.take c).ph = .accepted ∧ (s.take c).w0 = s.w0 ∧
    (s.take c).nd = s.nd ∧ (s.take c).s0 = s.s0 ∧ (s.take c).j = s.j ∧ (s.take c).out = s.out ∧
    (s.take c).rs = (if c = .poll then s.resync else s.rs) ∧ (s.take c).now = s.now ∧ (s.take c).inputs = s.inputs ∧
    (s.take c).agent = s.agent ∧ (s.take c).rdata = s.rdata ∧ (s.take c).fnOut = s.fnOut ∧
    (s.take c).draws = s.draws ∧ (s.take c).era = s.era :=
  ⟨rfl, rfl, rfl, rfl, rfl, rfl, rfl, rfl, rfl, rfl, rfl, rfl, rfl, rfl, rfl, rfl, rfl, rfl, rfl, rfl, rfl, rfl, rfl, rfl, rfl, rfl, rfl, rfl, rfl, rfl⟩

@[simp] theorem State.finish_fields (s : State) :
    (s.finish).params = s.params ∧ (s.finish).mem = s.mem ∧ (s.finish).w = s.w ∧ (s.finish).r = s.r ∧
    (s.finish).last = s.last ∧ (s.finish).armed = s.armed ∧ (s.finish).rem = s.rem ∧ (s.finish).dstate = s.dstate ∧
    (s.finish).result = s.result ∧ (s.finish).value = s.value ∧ (s.finish).partialBits = s.partialBits ∧
    (s.finish).resync = s.resync ∧ (s.finish).errBusy = s.errBusy ∧ (s.finish).errCmd = s.errCmd ∧
    (s.finish).remOvf = s.remOvf ∧ (s.finish).op = none ∧ (s.finish).ph = s.ph ∧ (s.finish).w0 = s.w0 ∧
    (s.finish).nd = s.nd ∧ (s.finish).s0 = s.s0 ∧ (s.finish).j = s.j ∧ (s.finish).out = s.out ∧
    (s.finish).rs = s.rs ∧ (s.finish).now = s.now ∧ (s.finish).inputs = s.inputs ∧ (s.finish).agent = s.agent ∧
    (s.finish).rdata = s.rdata ∧ (s.finish).fnOut = s.fnOut ∧ (s.finish).draws = s.draws ∧ (s.finish).era = s.era :=
  ⟨rfl, rfl, rfl, rfl, rfl, rfl, rfl, rfl, rfl, rfl, rfl, rfl, rfl, rfl, rfl, rfl, rfl, rfl, rfl, rfl, rfl, rfl, rfl, rfl, rfl, rfl, rfl, rfl, rfl, rfl⟩

@[simp] theorem State.snap_fields (s : State) :
    (s.snap).params = s.params ∧ (s.snap).mem = s.mem ∧ (s.snap).w = s.w ∧ (s.snap).r = s.r ∧
    (s.snap).last = s.last ∧ (s.snap).armed = s.armed ∧ (s.snap).rem = s.rem ∧ (s.snap).dstate = s.dstate ∧
    (s.snap).result = s.result ∧ (s.snap).value = s.value ∧ (s.snap).partialBits = s.partialBits ∧
    (s.snap).resync = s.resync ∧ (s.snap).errBusy = s.errBusy ∧ (s.snap).errCmd = s.errCmd ∧
    (s.snap).remOvf = s.remOvf ∧ (s.snap).op = s.op ∧ (s.snap).ph = .snapped ∧ (s.snap).w0 = s.w ∧
    (s.snap).nd = rbCount s.params.n s.w s.r ∧ (s.snap).s0 = s.w - BitVec.ofNat 32 (rbCount s.params.n s.w s.r) ∧
    (s.snap).j = 0 ∧ (s.snap).out = [] ∧ (s.snap).rs = s.rs ∧ (s.snap).now = s.now ∧ (s.snap).inputs = s.inputs ∧
    (s.snap).agent = s.agent ∧ (s.snap).rdata = s.rdata ∧ (s.snap).fnOut = s.fnOut ∧ (s.snap).draws = s.draws ∧
    (s.snap).era = s.era :=
  ⟨rfl, rfl, rfl, rfl, rfl, rfl, rfl, rfl, rfl, rfl, rfl, rfl, rfl, rfl, rfl, rfl, rfl, rfl, rfl, rfl, rfl, rfl, rfl, rfl, rfl, rfl, rfl, rfl, rfl, rfl⟩

@[simp] theorem State.readSlot_fields (s : State) :
    (s.readSlot).params = s.params ∧ (s.readSlot).mem = s.mem ∧ (s.readSlot).w = s.w ∧ (s.readSlot).r = s.r ∧
    (s.readSlot).last = s.last ∧ (s.readSlot).armed = s.armed ∧ (s.readSlot).rem = s.rem ∧
    (s.readSlot).dstate = s.dstate ∧ (s.readSlot).result = s.result ∧ (s.readSlot).value = s.value ∧
    (s.readSlot).partialBits = s.partialBits ∧ (s.readSlot).resync = s.resync ∧ (s.readSlot).errBusy = s.errBusy ∧
    (s.readSlot).errCmd = s.errCmd ∧ (s.readSlot).remOvf = s.remOvf ∧ (s.readSlot).op = s.op ∧
    (s.readSlot).ph = s.ph ∧ (s.readSlot).w0 = s.w0 ∧ (s.readSlot).nd = s.nd ∧ (s.readSlot).s0 = s.s0 ∧
    (s.readSlot).j = s.j + 1 ∧ (s.readSlot).out = s.out ++ [s.nextSample] ∧ (s.readSlot).rs = s.rs ∧
    (s.readSlot).now = s.now ∧ (s.readSlot).inputs = s.inputs ∧ (s.readSlot).agent = s.agent ∧
    (s.readSlot).rdata = s.rdata ∧ (s.readSlot).fnOut = s.fnOut ∧ (s.readSlot).draws = s.draws ∧
    (s.readSlot).era = s.era :=
  ⟨rfl, rfl, rfl, rfl, rfl, rfl, rfl, rfl, rfl, rfl, rfl, rfl, rfl, rfl, rfl, rfl, rfl, rfl, rfl, rfl, rfl, rfl, rfl, rfl, rfl, rfl, rfl, rfl, rfl, rfl⟩

@[simp] theorem State.drainCommit_fields (s : State) :
    (s.drainCommit).params = s.params ∧ (s.drainCommit).mem = s.mem ∧ (s.drainCommit).w = s.w ∧
    (s.drainCommit).r = s.w0 ∧ (s.drainCommit).last = s.last ∧ (s.drainCommit).armed = s.armed ∧
    (s.drainCommit).rem = appended s.params.remCap s.rem s.out ∧ (s.drainCommit).dstate = s.dstate ∧
    (s.drainCommit).result = s.result ∧ (s.drainCommit).value = s.value ∧
    (s.drainCommit).partialBits = s.partialBits ∧ (s.drainCommit).resync = s.resync ∧
    (s.drainCommit).errBusy = s.errBusy ∧ (s.drainCommit).errCmd = s.errCmd ∧
    (s.drainCommit).remOvf = (s.remOvf || overflows s.params.remCap s.rem s.out) ∧ (s.drainCommit).op = s.op ∧
    (s.drainCommit).ph = s.ph ∧ (s.drainCommit).w0 = s.w0 ∧ (s.drainCommit).nd = s.nd ∧ (s.drainCommit).s0 = s.s0 ∧
    (s.drainCommit).j = s.j ∧ (s.drainCommit).out = s.out ∧ (s.drainCommit).rs = s.rs ∧ (s.drainCommit).now = s.now ∧
    (s.drainCommit).inputs = s.inputs ∧ (s.drainCommit).agent = s.agent ∧ (s.drainCommit).rdata = s.rdata ∧
    (s.drainCommit).fnOut = s.fnOut ∧ (s.drainCommit).draws = s.draws ∧ (s.drainCommit).era = s.era :=
  ⟨rfl, rfl, rfl, rfl, rfl, rfl, rfl, rfl, rfl, rfl, rfl, rfl, rfl, rfl, rfl, rfl, rfl, rfl, rfl, rfl, rfl, rfl, rfl, rfl, rfl, rfl, rfl, rfl, rfl, rfl⟩

@[simp] theorem State.takeDecodeFault_fields (s : State) (i k : Nat) (q : Part) (p : Word) :
    (s.takeDecodeFault i k q p).params = s.params ∧ (s.takeDecodeFault i k q p).mem = s.mem ∧
    (s.takeDecodeFault i k q p).w = s.w ∧ (s.takeDecodeFault i k q p).r = s.r ∧
    (s.takeDecodeFault i k q p).last = s.last ∧ (s.takeDecodeFault i k q p).armed = s.armed ∧
    (s.takeDecodeFault i k q p).rem = (if s.rs then s.rem.drop (i + 1) else s.rem) ∧
    (s.takeDecodeFault i k q p).dstate = (if s.rs then .idle else .fault) ∧
    (s.takeDecodeFault i k q p).result = resultFault k q ∧ (s.takeDecodeFault i k q p).value = s.value ∧
    (s.takeDecodeFault i k q p).partialBits = p ∧ (s.takeDecodeFault i k q p).resync = s.resync ∧
    (s.takeDecodeFault i k q p).errBusy = s.errBusy ∧ (s.takeDecodeFault i k q p).errCmd = s.errCmd ∧
    (s.takeDecodeFault i k q p).remOvf = s.remOvf ∧ (s.takeDecodeFault i k q p).op = s.op ∧
    (s.takeDecodeFault i k q p).ph = s.ph ∧ (s.takeDecodeFault i k q p).w0 = s.w0 ∧
    (s.takeDecodeFault i k q p).nd = s.nd ∧ (s.takeDecodeFault i k q p).s0 = s.s0 ∧
    (s.takeDecodeFault i k q p).j = s.j ∧ (s.takeDecodeFault i k q p).out = s.out ∧
    (s.takeDecodeFault i k q p).rs = s.rs ∧ (s.takeDecodeFault i k q p).now = s.now ∧
    (s.takeDecodeFault i k q p).inputs = s.inputs ∧ (s.takeDecodeFault i k q p).agent = s.agent ∧
    (s.takeDecodeFault i k q p).rdata = s.rdata ∧ (s.takeDecodeFault i k q p).fnOut = s.fnOut ∧
    (s.takeDecodeFault i k q p).draws = s.draws ∧ (s.takeDecodeFault i k q p).era = s.era :=
  ⟨rfl, rfl, rfl, rfl, rfl, rfl, rfl, rfl, rfl, rfl, rfl, rfl, rfl, rfl, rfl, rfl, rfl, rfl, rfl, rfl, rfl, rfl, rfl, rfl, rfl, rfl, rfl, rfl, rfl, rfl⟩

@[simp] theorem State.clearDecoder_fields (s : State) :
    (s.clearDecoder).params = s.params ∧ (s.clearDecoder).mem = s.mem ∧ (s.clearDecoder).w = s.w ∧
    (s.clearDecoder).r = s.r ∧ (s.clearDecoder).last = s.last ∧ (s.clearDecoder).armed = s.armed ∧
    (s.clearDecoder).rem = [] ∧ (s.clearDecoder).dstate = .idle ∧ (s.clearDecoder).result = 0 ∧
    (s.clearDecoder).value = s.value ∧ (s.clearDecoder).partialBits = 0 ∧ (s.clearDecoder).resync = s.resync ∧
    (s.clearDecoder).errBusy = s.errBusy ∧ (s.clearDecoder).errCmd = s.errCmd ∧ (s.clearDecoder).remOvf = s.remOvf ∧
    (s.clearDecoder).op = s.op ∧ (s.clearDecoder).ph = s.ph ∧ (s.clearDecoder).w0 = s.w0 ∧
    (s.clearDecoder).nd = s.nd ∧ (s.clearDecoder).s0 = s.s0 ∧ (s.clearDecoder).j = s.j ∧
    (s.clearDecoder).out = s.out ∧ (s.clearDecoder).rs = s.rs ∧ (s.clearDecoder).now = s.now ∧
    (s.clearDecoder).inputs = s.inputs ∧ (s.clearDecoder).agent = s.agent ∧ (s.clearDecoder).rdata = s.rdata ∧
    (s.clearDecoder).fnOut = s.fnOut ∧ (s.clearDecoder).draws = s.draws ∧ (s.clearDecoder).era = s.era :=
  ⟨rfl, rfl, rfl, rfl, rfl, rfl, rfl, rfl, rfl, rfl, rfl, rfl, rfl, rfl, rfl, rfl, rfl, rfl, rfl, rfl, rfl, rfl, rfl, rfl, rfl, rfl, rfl, rfl, rfl, rfl⟩

@[simp] theorem State.withCommandWord_fields (s : State) (v : Word) :
    (s.withCommandWord v).params = s.params ∧ (s.withCommandWord v).mem = s.mem ∧ (s.withCommandWord v).w = s.w ∧
    (s.withCommandWord v).r = s.r ∧ (s.withCommandWord v).last = s.last ∧ (s.withCommandWord v).armed = s.armed ∧
    (s.withCommandWord v).rem = s.rem ∧ (s.withCommandWord v).dstate = s.dstate ∧
    (s.withCommandWord v).result = s.result ∧ (s.withCommandWord v).value = s.value ∧
    (s.withCommandWord v).partialBits = s.partialBits ∧ (s.withCommandWord v).resync = s.resync ∧
    (s.withCommandWord v).errBusy = s.errBusy ∧ (s.withCommandWord v).errCmd = s.errCmd ∧
    (s.withCommandWord v).remOvf = s.remOvf ∧ (s.withCommandWord v).op = s.op ∧ (s.withCommandWord v).ph = s.ph ∧
    (s.withCommandWord v).w0 = s.w0 ∧ (s.withCommandWord v).nd = s.nd ∧ (s.withCommandWord v).s0 = s.s0 ∧
    (s.withCommandWord v).j = s.j ∧ (s.withCommandWord v).out = s.out ∧ (s.withCommandWord v).rs = s.rs ∧
    (s.withCommandWord v).now = s.now ∧ (s.withCommandWord v).inputs = .hostWrite cmdOffset 4 v :: s.inputs ∧
    (s.withCommandWord v).agent = s.agent ∧ (s.withCommandWord v).rdata = s.rdata ∧
    (s.withCommandWord v).fnOut = s.fnOut ∧ (s.withCommandWord v).draws = s.draws ∧
    (s.withCommandWord v).era = s.era :=
  ⟨rfl, rfl, rfl, rfl, rfl, rfl, rfl, rfl, rfl, rfl, rfl, rfl, rfl, rfl, rfl, rfl, rfl, rfl, rfl, rfl, rfl, rfl, rfl, rfl, rfl, rfl, rfl, rfl, rfl, rfl⟩

end Sys2Proof.Machine
end

