-- ==== Sys2Proof/Laws/Memory.lean ====
section
/-! SUPPORT. The laws of the slot store: a read after a write, what a write leaves alone, the canonical form. -/

namespace Sys2Proof.Machine

-- One byte.

@[simp] theorem find_put_same (m : Memory) (a : Nat) (b : Byte) : Memory.find (Memory.put m a b) a = some b := by
  induction m with
  | nil => simp [Memory.put, Memory.find]
  | cons c m ih =>
    obtain ⟨k, x⟩ := c
    simp only [Memory.put]
    split
    · simp [Memory.find]
    · split
      · simp [Memory.find]
      · next h h' => simp [Memory.find, Ne.symm h', ih]

theorem find_put_other (m : Memory) (a a' : Nat) (b : Byte) (h : a' ≠ a) :
    Memory.find (Memory.put m a b) a' = Memory.find m a' := by
  induction m with
  | nil => simp [Memory.put, Memory.find, Ne.symm h]
  | cons c m ih =>
    obtain ⟨k, x⟩ := c
    simp only [Memory.put]
    split
    · simp [Memory.find, Ne.symm h]
    · split
      · next h1 h2 => subst h2; simp [Memory.find, Ne.symm h]
      · simp only [Memory.find]; split <;> simp [ih]

/-- The addresses of a memory after a write: the written one and those before. -/
theorem mem_put {m : Memory} {a : Nat} {b : Byte} {c : Host.Cell} (h : c ∈ Memory.put m a b) :
    c = (a, b) ∨ c ∈ m := by
  induction m with
  | nil => simpa [Memory.put] using h
  | cons d m ih =>
    obtain ⟨k, x⟩ := d
    simp only [Memory.put] at h
    split at h
    · simpa using h
    · split at h
      · next h1 h2 => subst h2; simp only [List.mem_cons] at h ⊢; tauto
      · simp only [List.mem_cons] at h ⊢
        rcases h with h | h
        · tauto
        · have := ih h; tauto

theorem put_wf {m : Memory} (h : Memory.wf m) (a : Nat) (b : Byte) : Memory.wf (Memory.put m a b) := by
  induction m with
  | nil => simp [Memory.put, Memory.wf]
  | cons d m ih =>
    obtain ⟨k, x⟩ := d
    obtain ⟨hk, hm⟩ := List.pairwise_cons.mp h
    simp only [Memory.put]
    split
    · next h1 =>
      refine List.pairwise_cons.mpr ⟨?_, h⟩
      intro y hy
      rcases List.mem_cons.mp hy with rfl | hy
      · exact h1
      · exact lt_trans h1 (hk y hy)
    · split
      · next h1 h2 => subst h2; exact List.pairwise_cons.mpr ⟨hk, hm⟩
      · refine List.pairwise_cons.mpr ⟨?_, ih hm⟩
        intro y hy
        rcases mem_put hy with rfl | hy
        · show k < a; omega
        · exact hk y hy

@[simp] theorem byte_put_same (e : Nat) (m : Memory) (a : Nat) (b : Byte) :
    Memory.byte e (Memory.put m a b) a = b := by simp [Memory.byte]

theorem byte_put_other (e : Nat) (m : Memory) {a a' : Nat} (b : Byte) (h : a' ≠ a) :
    Memory.byte e (Memory.put m a b) a' = Memory.byte e m a' := by simp [Memory.byte, find_put_other _ _ _ _ h]

-- The bytes of a word.

theorem putBytes_wf {m : Memory} (h : Memory.wf m) (a : Nat) (bs : List Byte) :
    Memory.wf (Memory.putBytes m a bs) := by
  induction bs generalizing m a with
  | nil => exact h
  | cons b bs ih => exact ih (put_wf h a b) _

theorem mem_putBytes {m : Memory} {a : Nat} {bs : List Byte} {c : Host.Cell} (h : c ∈ Memory.putBytes m a bs) :
    (a ≤ c.1 ∧ c.1 < a + bs.length) ∨ c ∈ m := by
  induction bs generalizing m a with
  | nil => exact .inr h
  | cons b bs ih =>
    rcases ih h with h | h
    · left; simp only [List.length_cons]; omega
    · rcases mem_put h with rfl | h
      · left; simp
      · exact .inr h

theorem byte_putBytes_outside (e : Nat) (m : Memory) (a a' : Nat) (bs : List Byte)
    (h : a' < a ∨ a + bs.length ≤ a') :
    Memory.byte e (Memory.putBytes m a bs) a' = Memory.byte e m a' := by
  induction bs generalizing m a with
  | nil => rfl
  | cons b bs ih =>
    simp only [List.length_cons] at h
    simp only [Memory.putBytes]
    rw [ih _ _ (by omega), byte_put_other e m b (by omega)]

/-- The lanes of a word give the word back. -/
@[simp] theorem wordOfLanes_bytes (w : Word) :
    wordOfLanes (w.extractLsb' 0 8) (w.extractLsb' 8 8) (w.extractLsb' 16 8) (w.extractLsb' 24 8) = w := by
  apply BitVec.eq_of_getLsbD_eq
  intro i hi
  simp only [wordOfLanes, BitVec.getLsbD_append, BitVec.getLsbD_extractLsb']
  split
  · next h => simp [h]
  · split
    · next h1 h2 => have : 8 + (i - 8) = i := by omega
                    simp [this, h2]
    · split
      · next h1 h2 h3 => have : 16 + (i - 8 - 8) = i := by omega
                         simp [this, h3]
      · next h1 h2 h3 => have : 24 + (i - 8 - 8 - 8) = i := by omega
                         simp only [this]
                         have h4 : i - 8 - 8 - 8 < 8 := by omega
                         simp [h4]

@[simp] theorem word_putWord_same (e : Nat) (m : Memory) (a : Nat) (v : Word) :
    Memory.word e (Memory.putWord m a v) a = v := by
  simp only [Memory.word, Memory.putWord, bytesOfWord, Memory.putBytes]
  rw [byte_put_other _ _ _ (by omega : a ≠ a + 1 + 1 + 1), byte_put_other _ _ _ (by omega : a ≠ a + 1 + 1),
    byte_put_other _ _ _ (by omega : a ≠ a + 1), byte_put_same,
    byte_put_other _ _ _ (by omega : a + 1 ≠ a + 1 + 1 + 1), byte_put_other _ _ _ (by omega : a + 1 ≠ a + 1 + 1),
    byte_put_same, byte_put_other _ _ _ (by omega : a + 2 ≠ a + 1 + 1 + 1), byte_put_same, byte_put_same,
    wordOfLanes_bytes]

theorem putWord_wf {m : Memory} (h : Memory.wf m) (a : Nat) (v : Word) : Memory.wf (Memory.putWord m a v) :=
  putBytes_wf h a _

theorem byte_putWord_outside (e : Nat) (m : Memory) (a a' : Nat) (v : Word) (h : a' < a ∨ a + 4 ≤ a') :
    Memory.byte e (Memory.putWord m a v) a' = Memory.byte e m a' :=
  byte_putBytes_outside e m a a' _ (by simpa [bytesOfWord] using h)

theorem word_putWord_other (e : Nat) (m : Memory) (a a' : Nat) (v : Word) (h : a' + 4 ≤ a ∨ a + 4 ≤ a') :
    Memory.word e (Memory.putWord m a v) a' = Memory.word e m a' := by
  simp only [Memory.word]
  rw [byte_putWord_outside _ _ _ _ _ (by omega), byte_putWord_outside _ _ _ _ _ (by omega),
    byte_putWord_outside _ _ _ _ _ (by omega), byte_putWord_outside _ _ _ _ _ (by omega)]

-- The slots.

/-- The memory after reset is in canonical form. -/
theorem reset_mem_wf : Memory.wf State.reset.mem := List.Pairwise.nil

theorem Params.n_pos (p : Params) : 0 < p.n := Nat.two_pow_pos _

theorem slotIndex_lt (s : State) : s.slotIndex < s.params.n := Nat.mod_lt _ (Params.n_pos _)

/-- slot[w mod N] holds the stored sample. -/
@[simp] theorem slot_storeSample_same (s : State) (v : Sample) : (s.storeSample v).slot s.slotIndex = v := by
  simp [State.slot, State.storeAddr]

/-- Every other slot holds what it held. -/
theorem slot_storeSample_other (s : State) (v : Sample) {i : Nat} (h : i ≠ s.slotIndex) :
    (s.storeSample v).slot i = s.slot i := by
  simp only [State.slot, State.storeSample_fields, State.storeAddr]
  exact word_putWord_other _ _ _ _ _ (by simp only [slotAddr]; omega)

/-- A stored sample stays within the slot store, which stays canonical. -/
theorem storeSample_memOk {s : State} (h : s.MemOk) (v : Sample) : (s.storeSample v).MemOk := by
  refine ⟨putWord_wf h.1 _ _, fun c hc => ?_⟩
  have hi := slotIndex_lt s
  rcases mem_putBytes (by simpa [Memory.putWord] using hc) with hc | hc
  · simp only [State.storeAddr, slotAddr, bytesOfWord, List.length_cons, List.length_nil] at hc
    simp only [State.storeSample_fields]
    omega
  · exact h.2 c hc

end Sys2Proof.Machine
end

