-- ==== Sys2Proof/Laws/Ops.lean ====
section
/-! SUPPORT. One lemma for each shared operation that says everything it can do. -/

namespace Sys2Proof.Machine

/-- A host's step of a command is the accept or the busy flag. -/
theorem commandStep_host {c : Command} {f : State → Host.Outcome State Fault Refusal} {s : State}
    (h : s.agent = .host) : commandStep c f s = .next (s.accept c) := by simp [commandStep, h]

/-- The engine's step of the command in flight. -/
theorem commandStep_eng {c : Command} {f : State → Host.Outcome State Fault Refusal} {s : State}
    (h : s.agent = .eng) (hop : s.op = some c) : commandStep c f s = f s := by simp [commandStep, h, hop]

/-- If a command takes a step, it is the host's accept or an engine step of the command in flight. -/
theorem commandStep_cases {c : Command} {f : State → Host.Outcome State Fault Refusal} {s t : State}
    (h : commandStep c f s = .next t) :
    (s.agent = .host ∧ t = s.accept c) ∨ (s.agent = .eng ∧ s.op = some c ∧ f s = .next t) := by
  unfold commandStep at h
  split at h
  · next ha => left; exact ⟨ha, by simpa using h.symm⟩
  · next ha =>
    split at h
    · next hop => right; exact ⟨ha, hop, h⟩
    · cases h
  · cases h

/-- If a drain takes a step, it is SNAP, a READ or the commit. -/
theorem drainSteps_cases {f : State → State} {s t : State} (h : drainSteps f s = .next t) :
    (s.ph = .accepted ∧ t = s.snap) ∨ (s.ph = .snapped ∧ s.j < s.nd ∧ t = s.readSlot) ∨
      (s.ph = .snapped ∧ s.j = s.nd ∧ t = f s) := by
  unfold drainSteps at h
  split at h
  · next hp => left; exact ⟨hp, by simpa using h.symm⟩
  · next hp =>
    split at h
    · next hj => right; left; exact ⟨hp, hj, by simpa using h.symm⟩
    · split at h
      · next hj => right; right; exact ⟨hp, hj, by simpa using h.symm⟩
      · cases h

theorem drainSteps_accepted {f : State → State} {s : State} (h : s.ph = .accepted) :
    drainSteps f s = .next s.snap := by simp [drainSteps, h]

theorem drainSteps_read {f : State → State} {s : State} (h : s.ph = .snapped) (hj : s.j < s.nd) :
    drainSteps f s = .next s.readSlot := by simp [drainSteps, h, hj]

theorem drainSteps_commit {f : State → State} {s : State} (h : s.ph = .snapped) (hj : s.j = s.nd) :
    drainSteps f s = .next (f s) := by simp [drainSteps, h, hj]

/-- The accept is a take when idle and the busy flag otherwise. -/
theorem accept_cases (s : State) (c : Command) :
    (s.op = none ∧ s.accept c = s.take c) ∨ (s.op ≠ none ∧ s.accept c = s.setErrBusy) := by
  by_cases h : s.op = none <;> simp [State.accept, h]

theorem rejectWord_cases (s : State) :
    (s.op = none ∧ s.rejectWord = s.setErrCmd) ∨ (s.op ≠ none ∧ s.rejectWord = s.setErrBusy) := by
  by_cases h : s.op = none <;> simp [State.rejectWord, h]

-- The remainder.

theorem appended_eq_drop (cap : Nat) (rem out : TimeSeq) :
    appended cap rem out = (rem ++ out).drop ((rem ++ out).length - cap) := by
  unfold appended
  split
  · rfl
  · next h => rw [Nat.sub_eq_zero_of_le (by omega), List.drop_zero]

theorem appended_length (cap : Nat) (rem out : TimeSeq) :
    (appended cap rem out).length = min (rem.length + out.length) cap := by
  rw [appended_eq_drop, List.length_drop, List.length_append]; omega

theorem appended_fits {cap : Nat} {rem out : TimeSeq} (h : rem.length + out.length ≤ cap) :
    appended cap rem out = rem ++ out := by
  rw [appended_eq_drop, Nat.sub_eq_zero_of_le (by simpa using h), List.drop_zero]

-- The ring.

theorem rbCount_le (n : Nat) (w r : Word) : rbCount n w r ≤ n := Nat.min_le_right _ _

theorem unread_length (s : State) : s.unread.length = rbCount s.params.n s.w s.r := by simp [State.unread]

/-- N divides 2^32, so the slot index continues across the wrap of a cursor (40_ring_buffer.md R110 corner case e). -/
theorem Params.n_dvd {p : Params} (h : p.Valid) : p.n ∣ 2 ^ 32 :=
  Nat.pow_dvd_pow 2 (by have := h; omega)

theorem Params.n_le {p : Params} (h : p.Valid) : p.n ≤ 16384 :=
  (Nat.pow_le_pow_right (by omega) h.2.1).trans (by norm_num)

/-- The slot index k cursors on. -/
theorem cursor_add_mod {p : Params} (h : p.Valid) (x : Word) (k : Nat) :
    (x + BitVec.ofNat 32 k).toNat % p.n = (x.toNat + k) % p.n := by
  rw [BitVec.toNat_add, BitVec.toNat_ofNat, Nat.mod_mod_of_dvd _ (Params.n_dvd h), Nat.add_mod,
    Nat.mod_mod_of_dvd _ (Params.n_dvd h), ← Nat.add_mod]

/-- sampleNow has TW bits. -/
theorem lowBits_lt (tw : Nat) (x : Word) : (lowBits tw x).toNat < 2 ^ tw := by
  simp only [lowBits, BitVec.toNat_ofNat]
  exact lt_of_le_of_lt (Nat.mod_le _ _) (Nat.mod_lt _ (Nat.two_pow_pos _))

end Sys2Proof.Machine
end

