-- ==== Sys2Proof/Laws/Matcher.lean ====
section
/-! SUPPORT. The laws of MATCH and SCAN. -/

namespace Sys2Proof.Machine

/-- MATCH as an open interval around the setpoint. -/
theorem matchUs_iff (m s : Int) :
    matchUs m s = true ↔ s - s * 12032 / 32768 < m ∧ m < s + s * 12032 / 32768 := by
  simp only [matchUs, decide_eq_true_eq]; omega

/-- The window of each setpoint, as bounds on the sample's integer. -/
theorem matchSample_iff (m : Sample) (sp : Setpoint) :
    matchSample m sp = true ↔
      setpointUs sp - setpointUs sp * 12032 / 32768 < m.toInt ∧
        m.toInt < setpointUs sp + setpointUs sp * 12032 / 32768 := matchUs_iff _ _

/-- No sample matches both bit spaces (42_nec_decoder.md R162). -/
theorem one_not_zero {m : Sample} (h : matchSample m .oneSpace = true) : matchSample m .zeroSpace = false := by
  rw [Bool.eq_false_iff]
  intro h0
  rw [matchSample_iff] at h h0
  simp only [setpointUs] at h h0
  omega

theorem scanSeq_hit {m : Sample} {sp : Setpoint} (h : matchSample m sp = true) (seq : TimeSeq) :
    scanSeq (m :: seq) sp = some 0 := by simp [scanSeq, h]

theorem scanSeq_miss {m : Sample} {sp : Setpoint} (h : matchSample m sp = false) (seq : TimeSeq) :
    scanSeq (m :: seq) sp = (scanSeq seq sp).map (· + 1) := by simp [scanSeq, h]

/-- NOT_FOUND means that nothing matches, and the other way round. -/
theorem scanSeq_eq_none {t : TimeSeq} {sp : Setpoint} :
    scanSeq t sp = none ↔ ∀ m ∈ t, matchSample m sp = false := by
  induction t with
  | nil => simp [scanSeq]
  | cons m t ih => cases hm : matchSample m sp <;> simp [scanSeq, hm, ih]

/-- SCAN passes over samples that do not match. -/
theorem scanSeq_skip {x : TimeSeq} {sp : Setpoint} (h : ∀ m ∈ x, matchSample m sp = false) (y : TimeSeq) :
    scanSeq (x ++ y) sp = (scanSeq y sp).map (· + x.length) := by
  induction x with
  | nil => simp
  | cons m x ih =>
    rw [List.cons_append, scanSeq_miss (h m (by simp)), ih fun m' hm => h m' (by simp [hm]), Option.map_map]
    congr 1

/-- A found index is in the sequence. -/
theorem scanSeq_lt {t : TimeSeq} {sp : Setpoint} {i : Nat} (h : scanSeq t sp = some i) : i < t.length := by
  induction t generalizing i with
  | nil => simp [scanSeq] at h
  | cons m t ih =>
    by_cases hm : matchSample m sp = true
    · rw [scanSeq_hit hm] at h; simp at h; subst h; simp
    · rw [scanSeq_miss (by simpa using hm)] at h
      obtain ⟨k, hk, rfl⟩ := Option.map_eq_some_iff.mp h
      simpa using ih hk

/-- Appending samples does not move the first match. -/
theorem scanSeq_append {t : TimeSeq} {sp : Setpoint} {i : Nat} (h : scanSeq t sp = some i) (more : TimeSeq) :
    scanSeq (t ++ more) sp = some i := by
  induction t generalizing i with
  | nil => simp [scanSeq] at h
  | cons m t ih =>
    by_cases hm : matchSample m sp = true
    · rw [scanSeq_hit hm] at h; rw [List.cons_append, scanSeq_hit hm]; exact h
    · rw [scanSeq_miss (by simpa using hm)] at h
      obtain ⟨k, hk, rfl⟩ := Option.map_eq_some_iff.mp h
      rw [List.cons_append, scanSeq_miss (by simpa using hm), ih hk]; rfl

end Sys2Proof.Machine
end

