-- ==== Sys2Proof/Laws/NecDecoder.lean ====
section
/-! SUPPORT. The laws of DECODE. -/

namespace Sys2Proof.Machine

/-- The pair at position i of the bit pairs is a received bit b. -/
def pairIs (seq : TimeSeq) (i : Nat) (b : Bool) : Prop :=
  matchSample (seq.getD (2 * i) 0) .bitMark = true ∧
    matchSample (seq.getD (2 * i + 1) 0) (if b then .oneSpace else .zeroSpace) = true

theorem pairIs_zero (m s : Sample) (rest : TimeSeq) (b : Bool) :
    pairIs (m :: s :: rest) 0 b ↔
      matchSample m .bitMark = true ∧ matchSample s (if b then .oneSpace else .zeroSpace) = true := by
  simp [pairIs]

theorem pairIs_succ (m s : Sample) (rest : TimeSeq) (i : Nat) (b : Bool) :
    pairIs (m :: s :: rest) (i + 1) b ↔ pairIs rest i b := by
  have h1 : 2 * (i + 1) = 2 * i + 1 + 1 := by omega
  simp only [pairIs, h1, List.getD_cons_succ]

/-- The bits of the pairs, the first one taken off. -/
theorem pairs_succ (m s : Sample) (rest : TimeSeq) (u : Word) (k d : Nat) :
    (∀ i < d + 1, pairIs (m :: s :: rest) i (u.getLsbD (31 - (k + i)))) ↔
      pairIs (m :: s :: rest) 0 (u.getLsbD (31 - k)) ∧ ∀ i < d, pairIs rest i (u.getLsbD (31 - (k + 1 + i))) := by
  rw [Nat.forall_lt_succ_left]
  refine and_congr Iff.rfl (forall_congr' fun i => imp_congr Iff.rfl ?_)
  rw [pairIs_succ, show k + (i + 1) = k + 1 + i by omega]

/-- Setting bit 31 - k of the value assembled so far. -/
theorem setBit_getLsbD (v : Word) (k b : Nat) (hk : k < 32) :
    (v ||| (1#32 <<< (31 - k))).getLsbD b = (v.getLsbD b || decide (b = 31 - k)) := by
  rw [BitVec.getLsbD_or, BitVec.getLsbD_shiftLeft]
  congr 1
  by_cases h : b = 31 - k
  · subst h; simp; omega
  · simp only [h, decide_false, BitVec.getLsbD_one]
    have : b < 31 - k ∨ 31 - k < b := by omega
    rcases this with h1 | h1
    · simp [h1]
    · simp; omega

/-- The interval of pair i that fails, the one before it in the pair being good (42_nec_decoder.md R163). -/
def failsAt (seq : TimeSeq) (i : Nat) : Part → Prop
  | .mark => matchSample (seq.getD (2 * i) 0) .bitMark = false
  | .space => matchSample (seq.getD (2 * i) 0) .bitMark = true ∧
      matchSample (seq.getD (2 * i + 1) 0) .oneSpace = false ∧ matchSample (seq.getD (2 * i + 1) 0) .zeroSpace = false

theorem failsAt_succ (m s : Sample) (rest : TimeSeq) (i : Nat) (q : Part) :
    failsAt (m :: s :: rest) (i + 1) q ↔ failsAt rest i q := by
  have h1 : 2 * (i + 1) = 2 * i + 1 + 1 := by omega
  cases q <;> simp only [failsAt, h1, List.getD_cons_succ]

/-- A pair is one bit. -/
theorem pairIs_iff_eq {seq : TimeSeq} {i : Nat} {b : Bool} (h : pairIs seq i b) (c : Bool) : pairIs seq i c ↔ c = b := by
  refine ⟨fun hc => ?_, fun hc => hc ▸ h⟩
  cases b <;> cases c <;> simp only [pairIs, if_true, if_false, Bool.false_eq_true] at h hc ⊢
  · rw [one_not_zero hc.2] at h; exact absurd h.2 (by simp)
  · rw [one_not_zero h.2] at hc; exact absurd hc.2 (by simp)

/-- A pair that is a bit does not fail. -/
theorem not_failsAt {seq : TimeSeq} {i : Nat} {b : Bool} (h : pairIs seq i b) (q : Part) : ¬ failsAt seq i q := by
  cases b <;> cases q <;> simp_all [pairIs, failsAt]

/-- A pair fails in one way. -/
theorem failsAt_iff_eq {seq : TimeSeq} {i : Nat} {q : Part} (h : failsAt seq i q) (q' : Part) :
    failsAt seq i q' ↔ q' = q := by
  cases q <;> cases q' <;> simp_all [failsAt]

/-- The value assembled so far with bit 31 - k set to b. -/
def withBit (v : Word) (k : Nat) (b : Bool) : Word := if b then v ||| (1#32 <<< (31 - k)) else v

/-- What one bit pair does: the decoder goes on with its bit, or reports this pair. -/
theorem decodePairs_step (n k : Nat) (v : Word) (m s : Sample) (rest : TimeSeq) :
    (∃ b, pairIs (m :: s :: rest) 0 b ∧
      decodePairs (n + 1) k v (m :: s :: rest) = decodePairs n (k + 1) (withBit v k b) rest) ∨
    (∃ q, failsAt (m :: s :: rest) 0 q ∧ decodePairs (n + 1) k v (m :: s :: rest) = .fault k q v) := by
  cases hm : matchSample m .bitMark
  · exact .inr ⟨.mark, by simpa [failsAt] using hm, by simp [decodePairs, hm]⟩
  · cases h1 : matchSample s .oneSpace
    · cases h0 : matchSample s .zeroSpace
      · exact .inr ⟨.space, by simp [failsAt, hm, h1, h0], by simp [decodePairs, hm, h1, h0]⟩
      · exact .inl ⟨false, by simp [pairIs, hm, h0], by simp [decodePairs, hm, h1, h0, withBit]⟩
    · exact .inl ⟨true, by simp [pairIs, hm, h1], by simp [decodePairs, hm, h1, withBit]⟩

/-- Agreeing above bit n with the value that has its bit set is agreeing above n + 1 and having that bit. -/
theorem agree_withBit {n k : Nat} {u v : Word} {b : Bool} (hk : n + 1 + k = 32)
    (hz : ∀ x < n + 1, v.getLsbD x = false) :
    (∀ x < 32, n ≤ x → u.getLsbD x = (withBit v k b).getLsbD x) ↔
      (∀ x < 32, n + 1 ≤ x → u.getLsbD x = v.getLsbD x) ∧ u.getLsbD (31 - k) = b := by
  have hbit : ∀ x, (withBit v k b).getLsbD x = (v.getLsbD x || (b && decide (x = 31 - k))) := by
    intro x
    cases b
    · simp [withBit]
    · simp only [withBit, if_true]; rw [setBit_getLsbD _ _ _ (by omega)]; simp
  simp only [hbit]
  constructor
  · intro h
    refine ⟨fun x hx hn => ?_, ?_⟩
    · rw [h x hx (by omega)]; simp; omega
    · rw [h _ (by omega) (by omega), hz _ (by omega)]; simp
  · rintro ⟨h1, h2⟩ x hx hn
    by_cases hxk : x = 31 - k
    · rw [hxk, h2, hz _ (by omega)]; simp
    · rw [h1 x hx (by omega)]; simp [hxk]

/-- The bits below stay clear. -/
theorem withBit_low {n k : Nat} {v : Word} (b : Bool) (hk : n + 1 + k = 32) (hz : ∀ x < n + 1, v.getLsbD x = false) :
    ∀ x < n, (withBit v k b).getLsbD x = false := by
  intro x hx
  cases b
  · exact hz x (by omega)
  · simp only [withBit, if_true]; rw [setBit_getLsbD _ _ _ (by omega), hz x (by omega)]; simp; omega

/-- A long enough sequence starts with a pair. -/
theorem exists_pair {n : Nat} {seq : TimeSeq} (h : 2 * (n + 1) ≤ seq.length) :
    ∃ m s rest, seq = m :: s :: rest ∧ 2 * n ≤ rest.length := by
  match seq, h with
  | m :: s :: rest, h => exact ⟨m, s, rest, rfl, by simp only [List.length_cons] at h; omega⟩
  | [_], h => simp only [List.length_cons, List.length_nil] at h; omega
  | [], h => simp only [List.length_nil] at h; omega

/-- Appending samples after enough pairs changes nothing. -/
theorem decodePairs_append {n k : Nat} {v : Word} {seq : TimeSeq} (h : 2 * n ≤ seq.length) (more : TimeSeq) :
    decodePairs n k v (seq ++ more) = decodePairs n k v seq := by
  induction n generalizing k v seq with
  | zero => simp [decodePairs]
  | succ n ih =>
    obtain ⟨m, s, rest, rfl, hr⟩ := exists_pair h
    simp only [List.cons_append, decodePairs, ih hr]

/-- With enough pairs the decoder ends in DATA or in a fault at one of them. -/
theorem decodePairs_total {n k : Nat} {v : Word} {seq : TimeSeq} (h : 2 * n ≤ seq.length) :
    (∃ u, decodePairs n k v seq = .data u) ∨
      ∃ i part p, k ≤ i ∧ i < k + n ∧ decodePairs n k v seq = .fault i part p := by
  induction n generalizing k v seq with
  | zero => exact .inl ⟨v, by simp [decodePairs]⟩
  | succ n ih =>
    obtain ⟨m, s, rest, rfl, hr⟩ := exists_pair h
    rcases decodePairs_step n k v m s rest with ⟨b, -, e⟩ | ⟨q, -, e⟩
    · rcases ih (k := k + 1) (v := withBit v k b) hr with ⟨u, hu⟩ | ⟨i, q, p, h1, h2, h3⟩
      · exact .inl ⟨u, e.trans hu⟩
      · exact .inr ⟨i, q, p, by omega, by omega, e.trans h3⟩
    · exact .inr ⟨k, _, _, le_refl _, by omega, e⟩

/-- DATA(u) exactly when u continues v with the bits of the pairs. -/
theorem decodePairs_data_iff {n k : Nat} {v u : Word} {seq : TimeSeq} (hk : n + k = 32) (hl : 2 * n ≤ seq.length)
    (hz : ∀ x < n, v.getLsbD x = false) :
    decodePairs n k v seq = .data u ↔
      (∀ x < 32, n ≤ x → u.getLsbD x = v.getLsbD x) ∧ ∀ i < n, pairIs seq i (u.getLsbD (31 - (k + i))) := by
  induction n generalizing k v seq with
  | zero =>
    simp only [decodePairs, DecodeOut.data.injEq, Nat.zero_le, forall_true_left, Nat.not_lt_zero, false_imp_iff,
      implies_true, and_true]
    exact ⟨fun h => by simp [h], fun h => BitVec.eq_of_getLsbD_eq fun i hi => (h i hi).symm⟩
  | succ n ih =>
    obtain ⟨m, s, rest, rfl, hr⟩ := exists_pair hl
    rw [pairs_succ]
    rcases decodePairs_step n k v m s rest with ⟨b, hb, e⟩ | ⟨q, hq, e⟩
    · rw [e, ih (by omega) hr (withBit_low b hk hz), agree_withBit hk hz, pairIs_iff_eq hb, and_assoc]
    · rw [e]
      simp only [reduceCtorEq, false_iff]
      exact fun h => not_failsAt h.2.1 q hq

/-- FAULT at the d-th pair exactly when it fails there and u continues v with the bits of the pairs before it alone. -/
theorem decodePairs_fault_iff {n k : Nat} {v u : Word} {seq : TimeSeq} {K : Nat} {q : Part} (hk : n + k = 32)
    (hl : 2 * n ≤ seq.length) (hz : ∀ x < n, v.getLsbD x = false) :
    decodePairs n k v seq = .fault K q u ↔
      ∃ d < n, K = k + d ∧ (∀ x < 32, n ≤ x → u.getLsbD x = v.getLsbD x) ∧
        (∀ i < d, pairIs seq i (u.getLsbD (31 - (k + i)))) ∧ (∀ x < n - d, u.getLsbD x = false) ∧ failsAt seq d q := by
  induction n generalizing k v seq with
  | zero => simp [decodePairs]
  | succ n ih =>
    obtain ⟨m, s, rest, rfl, hr⟩ := exists_pair hl
    rcases decodePairs_step n k v m s rest with ⟨b, hb, e⟩ | ⟨q', hq, e⟩
    · rw [e, ih (by omega) hr (withBit_low b hk hz)]
      simp only [agree_withBit hk hz]
      constructor
      · rintro ⟨d, hd, rfl, ⟨h1, h2⟩, h3, h4, h5⟩
        refine ⟨d + 1, by omega, by omega, h1, ?_, by simpa using h4, (failsAt_succ _ _ _ _ _).mpr h5⟩
        exact (pairs_succ _ _ _ _ _ _).mpr ⟨h2 ▸ hb, h3⟩
      · rintro ⟨d, hd, rfl, h1, h2, h3, h4⟩
        cases d with
        | zero => exact absurd h4 (not_failsAt hb q)
        | succ d =>
          rw [pairs_succ] at h2
          exact ⟨d, by omega, by omega, ⟨h1, (pairIs_iff_eq hb _).mp h2.1⟩, h2.2, by simpa using h3,
            (failsAt_succ _ _ _ _ _).mp h4⟩
    · rw [e]
      simp only [DecodeOut.fault.injEq]
      constructor
      · rintro ⟨rfl, rfl, rfl⟩
        exact ⟨0, by omega, rfl, fun _ _ _ => rfl, fun i hi => absurd hi (by omega), by simpa using hz, hq⟩
      · rintro ⟨d, hd, rfl, h1, h2, h3, h4⟩
        cases d with
        | zero =>
          refine ⟨rfl, ((failsAt_iff_eq hq q).mp h4).symm, BitVec.eq_of_getLsbD_eq fun x hx => ?_⟩
          by_cases hn : n + 1 ≤ x
          · exact (h1 x hx hn).symm
          · rw [hz x (by omega), h3 x (by omega)]
        | succ d => exact absurd hq (not_failsAt (h2 0 (by omega)) q')

/-- DECODE on three or more samples. -/
theorem decodeSeq_cons3 (h a b : Sample) (rest : TimeSeq) :
    decodeSeq (h :: a :: b :: rest) =
      if matchSample a .rptSpace && matchSample b .zeroSpace then .repeatFrame
      else if !matchSample a .hdrSpace then .noMatch
      else if (b :: rest).length < 2 * 32 then .short
      else decodePairs 32 0 0 (b :: rest) := rfl

theorem decodeSeq_short {seq : TimeSeq} (h : seq.length < 3) : decodeSeq seq = .short := by
  match seq, h with
  | [], _ => rfl
  | [_], _ => rfl
  | [_, _], _ => rfl
  | _ :: _ :: _ :: _, h => simp only [List.length_cons] at h; omega

/-- A long enough sequence has a header, its space and one more sample. -/
theorem exists_three {seq : TimeSeq} (h : 3 ≤ seq.length) : ∃ x a b rest, seq = x :: a :: b :: rest := by
  rcases seq with _ | ⟨x, _ | ⟨a, _ | ⟨b, rest⟩⟩⟩
  · simp at h
  · simp at h
  · simp at h
  · exact ⟨x, a, b, rest, rfl⟩

/-- DATA and FAULT come from the bit pairs of a sequence that passes steps 1 to 4. -/
theorem decodeSeq_iff_pairs {seq : TimeSeq} {d : DecodeOut} (h1 : d ≠ .short) (h2 : d ≠ .repeatFrame)
    (h3 : d ≠ .noMatch) : decodeSeq seq = d ↔ dataShaped seq ∧ decodePairs 32 0 0 (seq.drop 2) = d := by
  by_cases hl : 3 ≤ seq.length
  · obtain ⟨x, a, b, rest, rfl⟩ := exists_three hl
    rw [decodeSeq_cons3]
    simp only [dataShaped, List.getD_cons_succ, List.getD_cons_zero, List.drop_succ_cons, List.drop_zero]
    cases matchSample a .rptSpace <;> cases matchSample b .zeroSpace <;> cases matchSample a .hdrSpace <;>
      simp [Ne.symm h2, Ne.symm h3]
    all_goals
      by_cases hll : rest.length + 1 < 64
      · simp only [hll, if_true, Ne.symm h1, false_iff, not_and]; intro h; omega
      · simp only [hll, if_false, iff_and_self]; intro _; omega
  · rw [decodeSeq_short (by omega)]
    simp only [Ne.symm h1, dataShaped, false_iff, not_and, and_imp]
    intro h; omega

/-- The pairs after the header are the bit positions. -/
theorem pairIs_drop_two (seq : TimeSeq) (k : Nat) (b : Bool) : pairIs (seq.drop 2) k b ↔ bitAt seq k b := by
  have e : 2 + (2 * k + 1) = 3 + 2 * k := by omega
  simp [pairIs, bitAt, markAt, spaceAt, List.getD_eq_getElem?_getD, List.getElem?_drop, e]

/-- Appending samples does not change an outcome other than SHORT. -/
theorem decodeSeq_append {seq : TimeSeq} (h : decodeSeq seq ≠ .short) (more : TimeSeq) :
    decodeSeq (seq ++ more) = decodeSeq seq := by
  have hl : 3 ≤ seq.length := by
    by_contra hc
    exact h (decodeSeq_short (by omega))
  obtain ⟨x, a, b, rest, rfl⟩ := exists_three hl
  simp only [List.cons_append]
  rw [decodeSeq_cons3] at h ⊢
  rw [decodeSeq_cons3]
  split
  · rfl
  · next h1 =>
    split
    · rfl
    · next h2 =>
      by_cases h3 : (b :: rest).length < 2 * 32
      · rw [if_neg h1, if_neg h2, if_pos h3] at h; exact absurd rfl h
      · have h4 : ¬ (b :: (rest ++ more)).length < 2 * 32 := by
          simp only [List.length_cons, List.length_append] at h3 ⊢; omega
        rw [if_neg h4, if_neg h3, ← List.cons_append]
        exact decodePairs_append (by omega) more

end Sys2Proof.Machine
end

