-- ==== Sys2Proof/Laws/PerInstr.lean ====
section
/-! SUPPORT. A statement for every instruction as syntax, one lemma per constructor: a well-formed instruction that has a
word is what its word decodes to. -/

namespace Sys2Proof.Laws.Roundtrip

open Sys2Proof

/-- A well-formed instruction's word decodes to it. -/
def Statement (i : Instr) : Prop := i.wellFormed = true → ∀ w, encodeWord i = some w → decodeWord w = i

theorem nop : Statement .nop := by rintro - w ⟨⟩; decide
theorem poll : Statement .poll := by rintro - w ⟨⟩; decide
theorem drain : Statement .drain := by rintro - w ⟨⟩; decide
theorem rbReset : Statement .rbReset := by rintro - w ⟨⟩; decide
theorem sdReset : Statement .sdReset := by rintro - w ⟨⟩; decide
theorem reset : Statement .reset := by rintro - w ⟨⟩; decide
theorem start : Statement .start := by rintro - w ⟨⟩; decide
theorem stop : Statement .stop := by rintro - w ⟨⟩; decide
theorem capture : Statement .capture := by rintro - w ⟨⟩
theorem matchOp (m : Sample) (sp : Setpoint) : Statement (.matchOp m sp) := by rintro - w ⟨⟩
theorem scan (seq : TimeSeq) (sp : Setpoint) : Statement (.scan seq sp) := by rintro - w ⟨⟩
theorem decode (seq : TimeSeq) : Statement (.decode seq) := by rintro - w ⟨⟩

theorem reserved (v : Word) : Statement (.reserved v) := by
  intro hv w hw
  obtain rfl : v = w := by simpa [encodeWord] using hw
  have h8 : 8 ≤ v.toNat := by simpa [Instr.wellFormed, reservedWordOk] using hv
  have hn : commandOfWord v = none := by
    simp only [commandOfWord, List.find?_eq_none, decide_eq_true_eq]
    rintro c - rfl
    cases c <;> simp [Command.word] at h8
  simp [decodeWord, hn]

end Sys2Proof.Laws.Roundtrip
end

