-- ==== Sys2Proof/Laws/Streaming.lean ====
section
/-! SUPPORT. What the commits of START and POLL change and what they leave. -/

namespace Sys2Proof.Machine

theorem commitStart_cases (s : State) :
    (s.armed = true ∧ commitStart s = s.finish) ∨
      (s.armed = false ∧ commitStart s = State.finish { s with last := s.sampleNow, armed := true }) := by
  cases h : s.armed <;> simp [commitStart, h]

/-- Recording an attempt changes REM, DSTATE, RESULT, VALUE and PARTIAL at most. -/
theorem record_same (s : State) (a : Attempt) :
    (s.record a).params = s.params ∧ (s.record a).mem = s.mem ∧ (s.record a).w = s.w ∧ (s.record a).r = s.r ∧
    (s.record a).last = s.last ∧ (s.record a).armed = s.armed ∧ (s.record a).resync = s.resync ∧
    (s.record a).errBusy = s.errBusy ∧ (s.record a).errCmd = s.errCmd ∧ (s.record a).remOvf = s.remOvf ∧
    (s.record a).op = s.op ∧ (s.record a).ph = s.ph ∧ (s.record a).w0 = s.w0 ∧ (s.record a).nd = s.nd ∧
    (s.record a).s0 = s.s0 ∧ (s.record a).j = s.j ∧ (s.record a).out = s.out ∧ (s.record a).rs = s.rs ∧
    (s.record a).now = s.now ∧ (s.record a).inputs = s.inputs ∧ (s.record a).agent = s.agent ∧
    (s.record a).rdata = s.rdata ∧ (s.record a).fnOut = s.fnOut ∧ (s.record a).draws = s.draws ∧
    (s.record a).era = s.era := by
  cases a with
  | found i d => cases d <;> simp [State.record]
  | empty => simp [State.record]
  | noHeader => simp [State.record]

/-- The decode part of POLL changes REM, DSTATE, RESULT, VALUE and PARTIAL at most. -/
@[simp] theorem decodeOnce_same (s : State) :
    s.decodeOnce.params = s.params ∧ s.decodeOnce.mem = s.mem ∧ s.decodeOnce.w = s.w ∧ s.decodeOnce.r = s.r ∧
    s.decodeOnce.last = s.last ∧ s.decodeOnce.armed = s.armed ∧ s.decodeOnce.resync = s.resync ∧
    s.decodeOnce.errBusy = s.errBusy ∧ s.decodeOnce.errCmd = s.errCmd ∧ s.decodeOnce.remOvf = s.remOvf ∧
    s.decodeOnce.op = s.op ∧ s.decodeOnce.ph = s.ph ∧ s.decodeOnce.w0 = s.w0 ∧ s.decodeOnce.nd = s.nd ∧
    s.decodeOnce.s0 = s.s0 ∧ s.decodeOnce.j = s.j ∧ s.decodeOnce.out = s.out ∧ s.decodeOnce.rs = s.rs ∧
    s.decodeOnce.now = s.now ∧ s.decodeOnce.inputs = s.inputs ∧ s.decodeOnce.agent = s.agent ∧
    s.decodeOnce.rdata = s.rdata ∧ s.decodeOnce.fnOut = s.fnOut ∧ s.decodeOnce.draws = s.draws ∧
    s.decodeOnce.era = s.era := by
  unfold State.decodeOnce
  split
  · simp
  · exact record_same s _

/-- VALUE changes only with RESULT = DATA. -/
theorem record_value (s : State) (a : Attempt) :
    (s.record a).value = s.value ∨ (s.record a).result = resultData := by
  cases a with
  | found i d => cases d <;> simp [State.record]
  | empty => simp [State.record]
  | noHeader => simp [State.record]

end Sys2Proof.Machine
end

