-- ==== Sys2Proof/Laws/Step.lean ====
section
/-! SUPPORT. What a step can do: one inversion lemma for step, one for the host's word write, one for an engine step. -/

namespace Sys2Proof.Machine

/-- What exec does with a command's instruction in the engine's turn. -/
theorem exec_engine {c : Command} {s t : State} (ha : s.agent = .eng) (hop : s.op = some c)
    (h : exec c.instr s = .next t) :
    (c = .nop ∧ t = s.finish) ∨ (c = .start ∧ t = commitStart s) ∨ (c = .stop ∧ t = commitStop s) ∨
      (c = .rbReset ∧ t = s.rewindRing.finish) ∨ (c = .sdReset ∧ t = s.clearDecoder.finish) ∨
      (c = .reset ∧ t = s.rewindRing.clearDecoder.finish) ∨
      ((c = .drain ∨ c = .poll) ∧ s.ph = .accepted ∧ t = s.snap) ∨
      ((c = .drain ∨ c = .poll) ∧ s.ph = .snapped ∧ s.j < s.nd ∧ t = s.readSlot) ∨
      (c = .drain ∧ s.ph = .snapped ∧ s.j = s.nd ∧ t = s.drainCommit.finish) ∨
      (c = .poll ∧ s.ph = .snapped ∧ s.j = s.nd ∧ t = commitPoll s) := by
  cases c <;> simp only [Command.instr, exec, execNop, execStart, execStop, execRbReset, execSdReset, execReset,
    execDrain, execPoll, commandStep_eng ha hop] at h
  case poll => rcases drainSteps_cases h with h | h | h <;> simp [h]
  case drain => rcases drainSteps_cases h with h | h | h <;> simp [h]
  all_goals simp only [Host.Outcome.next.injEq] at h; simp [h]

/-- What exec does with a decoded word in the host's turn. -/
theorem exec_host (v : Word) {s : State} (ha : s.agent = .host) :
    exec (decodeWord v) s = .next (match commandOfWord v with
      | some c => s.accept c
      | none => s.rejectWord) := by
  unfold decodeWord
  cases hc : commandOfWord v with
  | some c =>
    cases c <;> simp [Command.instr, exec, execNop, execStart, execStop, execRbReset, execSdReset, execReset,
      execDrain, execPoll, commandStep_host ha]
  | none => simp [exec, execReserved, ha]

/-- What exec does with an EDGE event. -/
theorem exec_capture (s : State) :
    exec .capture s = .next (if s.armed then (s.storeSample (tc32 s.interval)).advanceWrite s.sampleNow else s) := rfl

/-- The one inversion lemma of step: if it answers next t, it was an idle step, the engine's turn (with or without a listed
input), a capture, a host read, a host write to CMD, a host write elsewhere, or RST. -/
theorem step_cases {s t : State} (h : step s = .next t) :
    (t = s ∧ s.inputs = [] ∧ s.op = none) ∨
    (∃ now rest, s.inputs = .engine now :: rest ∧ s.op = none ∧ t = { s with inputs := rest, now := now }) ∨
    (∃ c s', s.op = some c ∧ exec c.instr s' = .next t ∧
      ((s.inputs = [] ∧ s' = { s with now := Config.freeNow s.draws, draws := s.draws + 1, agent := .eng }) ∨
        ∃ now rest, s.inputs = .engine now :: rest ∧ s' = { s with inputs := rest, now := now, agent := .eng })) ∨
    (∃ now rest, s.inputs = .edge now :: rest ∧
      exec .capture { s with inputs := rest, now := now, agent := .cap } = .next t) ∨
    (∃ off width rest, s.inputs = .hostRead off width :: rest ∧ width = 4 ∧ off.toNat % 4 = 0 ∧
      t = { s with inputs := rest, agent := .host, rdata := some (s.readReg off.toNat) }) ∨
    (∃ v rest, s.inputs = .hostWrite cmdOffset 4 v :: rest ∧
      exec (decodeWord v) { s with inputs := rest, agent := .host } = .next t) ∨
    (∃ off v rest, s.inputs = .hostWrite off 4 v :: rest ∧ off.toNat % 4 = 0 ∧ off ≠ cmdOffset ∧
      t = State.writeReg { s with inputs := rest, agent := .host } off.toNat v) ∨
    (∃ rest, s.inputs = .rst :: rest ∧ t = State.powerOn { s with inputs := rest }) := by
  have hc : s.inputs = [] ∨ ∃ e rest, s.inputs = e :: rest := by cases s.inputs <;> simp
  unfold step fetch at h
  rcases hc with hi | ⟨e, rest, hi⟩
  · simp only [hi] at h
    by_cases hop : s.op = none
    · simp only [hop, if_true, Host.Outcome.next.injEq] at h
      exact .inl ⟨h.symm, hi, hop⟩
    · obtain ⟨c, hc⟩ := Option.ne_none_iff_exists'.mp hop
      simp only [hc, reduceCtorEq, if_false, engineTurn, State.drawNow_fields] at h
      exact .inr (.inr (.inl ⟨c, _, hc, h, .inl ⟨hi, rfl⟩⟩))
  · simp only [hi] at h
    cases e with
    | edge now => exact .inr (.inr (.inr (.inl ⟨now, rest, hi, h⟩)))
    | engine now =>
      simp only [takeInput, engineTurn, State.setNow_fields] at h
      have hop : s.op = none ∨ ∃ c, s.op = some c := by cases s.op <;> simp
      rcases hop with hop | ⟨c, hop⟩
      · simp only [hop, Host.Outcome.next.injEq] at h
        exact .inr (.inl ⟨now, rest, hi, hop, by rw [← h]; simp [State.setNow, hop]⟩)
      · simp only [hop] at h
        exact .inr (.inr (.inl ⟨c, _, hop, h, .inr ⟨now, rest, hi, by simp [State.setNow, State.enter, hop]⟩⟩))
    | hostRead off width =>
      simp only [takeInput, hostReadStep, accessRefusal] at h
      by_cases hw : width = 4
      · by_cases ho : off.toNat % 4 = 0
        · simp only [hw, ho, ne_eq, not_true_eq_false, if_false, Host.Outcome.next.injEq] at h
          exact .inr (.inr (.inr (.inr (.inl ⟨off, width, rest, hi, hw, ho, h.symm⟩))))
        · simp [hw, ho] at h
      · simp [hw] at h
    | hostWrite off width v =>
      simp only [takeInput, hostWriteTurn] at h
      by_cases hc : off = cmdOffset ∧ width = 4
      · obtain ⟨rfl, rfl⟩ := hc
        simp only [and_self, if_true] at h
        exact .inr (.inr (.inr (.inr (.inr (.inl ⟨v, rest, hi, h⟩)))))
      · simp only [hc, if_false, hostWriteStep, accessRefusal] at h
        by_cases hw : width = 4
        · by_cases ho : off.toNat % 4 = 0
          · simp only [hw, ho, ne_eq, not_true_eq_false, if_false, Host.Outcome.next.injEq] at h
            subst hw
            exact .inr (.inr (.inr (.inr (.inr (.inr (.inl
              ⟨off, v, rest, hi, ho, fun hx => hc ⟨hx, rfl⟩, h.symm⟩))))))
          · simp [hw, ho] at h
        · simp [hw] at h
    | rst =>
      simp only [takeInput, Host.Outcome.next.injEq] at h
      exact .inr (.inr (.inr (.inr (.inr (.inr (.inr ⟨rest, hi, h.symm⟩))))))

/-- The state in which the engine takes its step: its turn, and every piece of the spec's state as before. -/
theorem engine_turn {s t s' : State} {c : Command} (hop : s.op = some c) (_ : exec c.instr s' = .next t)
    (hs : (s.inputs = [] ∧ s' = { s with now := Config.freeNow s.draws, draws := s.draws + 1, agent := .eng }) ∨
      ∃ now rest, s.inputs = .engine now :: rest ∧ s' = { s with inputs := rest, now := now, agent := .eng }) :
    s'.agent = .eng ∧ s'.op = some c ∧ s'.params = s.params ∧ s'.mem = s.mem ∧ s'.w = s.w ∧ s'.r = s.r ∧
      s'.last = s.last ∧ s'.armed = s.armed ∧ s'.rem = s.rem ∧ s'.dstate = s.dstate ∧ s'.result = s.result ∧
      s'.value = s.value ∧ s'.partialBits = s.partialBits ∧ s'.resync = s.resync ∧ s'.errBusy = s.errBusy ∧
      s'.errCmd = s.errCmd ∧ s'.remOvf = s.remOvf ∧ s'.ph = s.ph ∧ s'.w0 = s.w0 ∧ s'.nd = s.nd ∧ s'.s0 = s.s0 ∧
      s'.j = s.j ∧ s'.out = s.out ∧ s'.rs = s.rs ∧ s'.era = s.era := by
  rcases hs with ⟨-, rfl⟩ | ⟨_, _, -, rfl⟩ <;> simp [hop]

/-- A run is its first step and the rest. -/
theorem run_step {s u : State} (h : step s = .next u) (k : Nat) : core.run (k + 1) s = core.run k u := by
  have h' : core.step s = .next u := h
  simp only [Host.Core.run, h']

/-- A 32-bit read at an aligned offset returns what the map says there. -/
theorem readReturns_of_readReg {s : State} {off : BitVec 18} {x : Word} (ho : off.toNat % 4 = 0)
    (hx : s.readReg off.toNat = x) : ReadReturns s off x := by
  intro rest h
  simp only [step, fetch, h, takeInput, hostReadStep, accessRefusal, ho]
  simp only [ne_eq, not_true_eq_false, if_false, State.enter, Host.Outcome.next.injEq]
  rw [← hx]; rfl

/-- A count fits its field. -/
theorem countWord_eq {n : Nat} (h : n < 32768) : countWord n = BitVec.ofNat 32 n := by
  apply BitVec.eq_of_toNat_eq
  simp only [countWord, BitVec.toNat_append, BitVec.toNat_ofNat, Nat.zero_shiftLeft, Nat.zero_or, Nat.zero_mod]
  omega

end Sys2Proof.Machine
end

