-- ==== Sys2Proof/Tests/Slice0.lean ====
section
/-! SUPPORT. Tests of single steps against 95_test_vectors.md, the well-formedness smoke tests, and for every statement
with hypotheses a witness that meets them together. -/

namespace Sys2Proof.Tests

open Sys2Proof Sys2Proof.Machine

-- Helpers.

/-- A view of the next state an outcome holds. -/
def look {α : Type} (f : State → α) : Host.Outcome State Fault Refusal → Option α
  | .next t => some (f t)
  | _ => none

/-- Why an outcome refuses. -/
def refusal : Host.Outcome State Fault Refusal → Option Refusal
  | .refused x => some x
  | _ => none

/-- There is a next state. -/
def runs (o : Host.Outcome State Fault Refusal) : Bool := (look (fun _ => ()) o).isSome

/-- The ring of eight slots of the vectors with N = 8, after RST. -/
def small : State := State.resetWith { log2N := 3, remCap := 66, tw := 32 }

/-- s in the engine's turn, performing c. -/
def turn (c : Command) (s : State) : State := { s with op := some c, agent := .eng }

/-- s in which a drain has its snapshot and has read all of ND samples. -/
def atCommit (c : Command) (nd : Nat) (s : State) : State := { turn c s with ph := .snapped, nd := nd, j := nd }

/-- Three unread samples 7, 8, 9 in slots 2, 3, 4 (95_test_vectors.md 2.3). -/
def three : State :=
  { small with
    rem := [1, 2], w := 5, r := 2
    mem := ((Memory.putWord [] (slotAddr 2) 7).putWord (slotAddr 3) 8).putWord (slotAddr 4) 9 }

/-- The drain race of 95_test_vectors.md 2.3 after SNAP: N = 8, w = 8, LAST = 80, NOW = 189. -/
def race : State :=
  { small with
    w := 8, last := 80, now := 189, armed := true, agent := .cap, op := some .drain, ph := .snapped, w0 := 8, nd := 8 }

/-- The state of 95_test_vectors.md 2.8, a latched fault, with REM shortened to three samples. -/
def faulted : State :=
  { State.reset with
    w := 72, r := 72, rem := [1, 2, 3], dstate := .fault, result := 0x503, value := 0x12345678
    partialBits := 0x10000000, armed := true, remOvf := true }

/-- The frame of 0x12345678, written out in 95_test_vectors.md 1.3: its header, and its first and last 16 bits. -/
def frameHeader : TimeSeq := [9000, 4500]
def frameHigh : TimeSeq :=
  [560, 560, 560, 560, 560, 560, 560, 1690, 560, 560, 560, 560, 560, 1690, 560, 560,
   560, 560, 560, 560, 560, 1690, 560, 1690, 560, 560, 560, 1690, 560, 560, 560, 560]
def frameLow : TimeSeq :=
  [560, 560, 560, 1690, 560, 560, 560, 1690, 560, 560, 560, 1690, 560, 1690, 560, 560,
   560, 560, 560, 1690, 560, 1690, 560, 1690, 560, 1690, 560, 560, 560, 560, 560, 560]
def frame : TimeSeq := frameHeader ++ (frameHigh ++ frameLow)

/-- That frame with the mark, and with the space, of bit 5 replaced by 1000 (95_test_vectors.md 1.5, 2.6). -/
def badMark : TimeSeq := frame.set 12 1000
def badSpace : TimeSeq := frame.set 13 1000

-- Well-formedness smoke: an ill-formed term for each check, refused; and terms at the boundary, accepted.

theorem test_wf_reserved_below_eight : (Instr.reserved 7).wellFormed = false := by decide
theorem test_wf_reserved_eight : (Instr.reserved 8).wellFormed = true := by decide
theorem test_wf_decode_empty : (Instr.decode []).wellFormed = false := by decide
theorem test_wf_decode_unaligned :
    (Instr.decode [5696, 4500]).wellFormed = false ∧ (Instr.decode [12304, 4500]).wellFormed = false := by decide
theorem test_wf_decode_aligned :
    (Instr.decode [5697, 4500]).wellFormed = true ∧ (Instr.decode [12303]).wellFormed = true := by decide

-- Decoding from bytes in lane order (20_memory.md R73); the words bit by bit stand in Decode.lean.

theorem test_decode_poll : decode [0x01, 0x00, 0x00, 0x00] = .ok (.poll, []) := by decide
theorem test_decode_alias : decode [0x11, 0x00, 0x00, 0x00, 0x07] = .ok (.reserved 0x11, [0x07]) := by decide
theorem test_decode_high_lane : decode [0x00, 0x00, 0x00, 0x80] = .ok (.reserved 0x80000000, []) := by decide
theorem test_decode_short : decode [0x01, 0x00, 0x00] = .error .shortWord := by decide
theorem test_decode_table_word :
    decodeTableWord 32 7 = some .stop ∧ decodeTableWord 32 0x00000100 = some (.reserved 0x100) ∧
    decodeTableWord 40 7 = none := by decide

-- One step of each instruction.

-- 95_test_vectors.md 2.1: TW = 32, NOW = 52810, LAST = 52250 stores 560; with w = 7 and N = 8 the slot is 7.
theorem test_capture_stores :
    look (fun t => (t.slot 7, t.w, t.last))
      (exec .capture { small with armed := true, w := 7, now := 52810, last := 52250 }) =
      some (0x230, 8, 52810) := by decide

-- 95_test_vectors.md 2.1: TW = 16, NOW = 8464, LAST = 65000 stores 9000; w = 0xFFFFFFFF goes to 0.
theorem test_capture_wraps :
    look (fun t => (t.slot 7, t.w))
      (exec .capture { State.resetWith ⟨3, 66, 16⟩ with armed := true, w := 0xFFFFFFFF, now := 8464, last := 65000 }) =
      some (0x2328, 0) := by decide

-- 95_test_vectors.md 2.3: CMD START @1000 from reset.
theorem test_start :
    look (fun t => (t.armed, t.last, t.statusWord)) (exec .start { turn .start State.reset with now := 1000 }) =
      some (true, 1000, 1) := by decide

-- 95_test_vectors.md 2.3: START @5000 while ARMED = 1 keeps LAST.
theorem test_start_armed :
    look (fun t => t.last) (exec .start { turn .start State.reset with now := 5000, armed := true, last := 1000 }) =
      some 1000 := by decide

-- 95_test_vectors.md 2.3: STOP.
theorem test_stop :
    look (fun t => (t.armed, t.last)) (exec .stop { turn .stop State.reset with armed := true, last := 1000 }) =
      some (false, 1000) := by decide

-- 95_test_vectors.md 2.8: the four rows from the latched fault.
theorem test_rb_reset :
    look (fun t => (t.w, t.r, t.rem, t.dstate, t.result)) (exec .rbReset (turn .rbReset faulted)) =
      some (0, 0, [1, 2, 3], .fault, 0x503) := by decide
theorem test_sd_reset :
    look (fun t => ([t.w, t.r, t.result, t.value, t.partialBits], t.rem, t.dstate, t.armed, t.remOvf))
      (exec .sdReset (turn .sdReset faulted)) = some ([72, 72, 0, 0x12345678, 0], [], .idle, true, true) := by decide
theorem test_reset :
    look (fun t => ([t.w, t.r, t.result, t.value, t.partialBits], t.rem, t.dstate, t.armed, t.remOvf))
      (exec .reset (turn .reset faulted)) = some ([0, 0, 0, 0x12345678, 0], [], .idle, true, true) := by decide
theorem test_nop :
    look (fun t => (t.op, t.w, t.rem, t.dstate, t.result)) (exec .nop (turn .nop faulted)) =
      some (none, 72, [1, 2, 3], .fault, 0x503) := by decide

-- 95_test_vectors.md 2.2 and 2.3: SNAP with N = 8, w = 10, r = 0 saturates at 8, the oldest sample being in slot 2.
theorem test_drain_snap :
    look (fun t => (t.w0, t.nd, t.s0, t.ph)) (exec .drain (turn .drain { small with w := 10 })) =
      some (10, 8, 2, .snapped) := by decide

-- 95_test_vectors.md 2.3: REM = [1, 2] and the samples 7, 8, 9.
theorem test_drain_commit :
    look (fun t => (t.rem, t.r, t.op, t.result))
      (exec .drain { atCommit .drain 3 { three with result := 4 } with w0 := 5, out := [7, 8, 9] }) =
      some ([1, 2, 7, 8, 9], 5, none, 4) := by decide

-- 95_test_vectors.md 2.7: a repeat frame after noise; and no attempt once the fault is latched.
theorem test_poll_repeat :
    look (fun t => (t.result, t.dstate, t.rem)) (exec .poll (atCommit .poll 0 { small with rem := [40000, 9000, 2250, 560, 7] })) =
      some (1, .idle, [7]) := by decide
theorem test_poll_latched :
    look (fun t => (t.result, t.dstate, t.rem))
      (exec .poll (atCommit .poll 0 { faulted with rem := [9000, 2250, 560] })) =
      some (0x503, .fault, [9000, 2250, 560]) := by decide

-- 95_test_vectors.md 2.4.
theorem test_match :
    look (fun t => t.fnOut) (exec (.matchOp 600 .bitMark) State.reset) = some (.matched true) ∧
    look (fun t => t.fnOut) (exec (.matchOp 355 .bitMark) State.reset) = some (.matched false) := by decide
theorem test_match_negative :
    look (fun t => t.fnOut) (exec (.matchOp 0xFFFFDCD8 .hdrMark) State.reset) = some (.matched false) := by decide

-- 95_test_vectors.md 2.5.
theorem test_scan :
    look (fun t => t.fnOut) (exec (.scan [5696, 12304, 12303] .hdrMark) State.reset) = some (.scanned (some 2)) ∧
    look (fun t => t.fnOut) (exec (.scan [100, 100, 100] .hdrMark) State.reset) = some (.scanned none) := by decide

-- 95_test_vectors.md 1.3 and 1.5.
theorem test_decode_data : decodeSeq frame = .data 0x12345678 := by decide
theorem test_decode_fault :
    decodeSeq badMark = .fault 5 .mark 0x10000000 ∧ decodeSeq badSpace = .fault 5 .space 0x10000000 := by decide

-- 95_test_vectors.md 2.9: reserved words, idle and busy.
theorem test_reserved :
    look (fun t => (t.errCmd, t.errBusy, t.op)) (exec (.reserved 8) State.reset) = some (true, false, none) := by decide
theorem test_reserved_busy :
    look (fun t => (t.errCmd, t.errBusy, t.op)) (exec (.reserved 8) { State.reset with op := some .poll }) =
      some (false, true, some .poll) := by decide

-- The host port and the whole step.

-- 95_test_vectors.md, "PARAM reads 0x01000407".
theorem test_param : State.reset.readReg 0x2C = 0x01000407 := by decide

-- 10_state.md R42: writing 0x10 to STATUS = 0x71 leaves 0x61.
theorem test_status_w1c :
    let s := { State.reset with armed := true, errBusy := true, errCmd := true, remOvf := true }
    s.statusWord = 0x71 ∧
    look (fun t => t.statusWord) (step { s with inputs := [.hostWrite 0x00008 4 0x10] }) = some 0x61 := by decide

-- 20_memory.md R73, 95_test_vectors.md 2.1: a stored -5 reads as 0xFFFFFFFB in both windows.
theorem test_windows :
    State.readReg { small with rem := [9, 0xFFFFFFFB] } 0x20004 = 0xFFFFFFFB ∧
    State.readReg { small with mem := Memory.putWord [] (slotAddr 7) 0xFFFFFFFB } 0x1001C = 0xFFFFFFFB ∧
    State.readReg small 0x10020 = 0 := by decide

-- 20_memory.md R71, R72.
theorem test_refusals :
    refusal (step { small with inputs := [.hostRead 0x00008 2] }) = some .accessWidth ∧
    refusal (step { small with inputs := [.hostWrite 0x00006 4 1] }) = some .misaligned := by decide

-- The word placed with withFetchWord is the first instruction after reset, and it is accepted.
theorem test_fetch_word :
    look (fun t => (t.op, t.statusWord)) (step (State.reset.withFetchWord 32 1)) = some (some .poll, 2) := by decide

-- 30_encoding.md R92: without further inputs the engine performs the command it holds.
theorem test_engine_goes_on :
    look (fun t => t.op) (step { State.reset with op := some .nop }) = some none := by decide

-- Witnesses: for every statement with hypotheses, a concrete state and operands that meet them together, clause by clause.

/-- The host's write of v to CMD is the coming input of s. -/
def writing (v : Word) (s : State) : State := { s with inputs := [.hostWrite cmdOffset 4 v] }

theorem witness_DecodeEncodeRoundTrip :
    (Instr.reserved 8).wellFormed = true ∧ encode (.reserved 8) = some [8, 0, 0, 0] ∧
    Instr.stop.wellFormed = true ∧ encode .stop = some [7, 0, 0, 0] := by decide

theorem witness_WordsBelowEightAreTheCommands :
    (7 : Word).toNat < 8 ∧ decodeWord 7 = Command.stop.instr ∧ 8 ≤ (8 : Word).toNat ∧ decodeWord 8 = .reserved 8 := by
  decide

theorem witness_StepRunsTheNextInstruction :
    (writing 2 small).inputs = .hostWrite cmdOffset 4 2 :: [] ∧
    ({ small with inputs := [.edge 9] } : State).inputs = .edge 9 :: [] ∧
    ({ small with inputs := [.engine 9], op := some .start } : State).op = some .start ∧
    ({ small with inputs := [.engine 9] } : State).op = none ∧
    (small.inputs = [] ∧ { small with op := some .stop }.op = some Command.stop ∧ small.op = none) ∧
    decodeTableWord 32 8 = some (.reserved 8) := by decide

theorem witness_CmdWriteAcceptsOrFlags :
    (writing 7 small).op = none ∧ commandOfWord 7 = some .stop ∧ commandOfWord 8 = none ∧
    { writing 7 small with op := some Command.poll }.op ≠ none ∧
    ({ small with inputs := [.hostRead cmdOffset 4] } : State).inputs = .hostRead cmdOffset 4 :: [] := by decide

theorem witness_ReservedWordOnlySetsItsFlag :
    8 ≤ (8 : Word).toNat ∧ small.agent = .host ∧ small.op = none ∧ { small with op := some Command.nop }.op ≠ none := by
  decide

theorem witness_BusyWriteSetsOnlyErrBusy :
    { small with op := some Command.nop }.agent = .host ∧ { small with op := some Command.nop }.op ≠ none := by decide

/-- For AcceptsAs (NOP, START, STOP, RB_RESET, SD_RESET, RESET, DRAIN, POLL): both of its cases. -/
theorem witness_AcceptsAs :
    small.agent = .host ∧ small.op = none ∧ { small with op := some Command.nop }.op ≠ none := by decide

/-- For the engine's turn of every command (the same eight statements). -/
theorem witness_EngineHas (c : Command) : EngineHas c (turn c small) := ⟨rfl, rfl⟩

theorem witness_StartArmsAndLoadsLast :
    EngineHas .start (turn .start small) ∧ (turn .start small).armed = false ∧
    (turn .start { small with armed := true }).armed = true := ⟨⟨rfl, rfl⟩, rfl, rfl⟩

theorem witness_DrainSnapsThenReads :
    EngineHas .drain (turn .drain three) ∧ (turn .drain three).ph = .accepted ∧
    EngineHas .poll { atCommit .poll 3 three with j := 2 } ∧ ({ atCommit .poll 3 three with j := 2 } : State).ph = .snapped ∧
    ({ atCommit .poll 3 three with j := 2 } : State).j < ({ atCommit .poll 3 three with j := 2 } : State).nd :=
  ⟨⟨rfl, rfl⟩, rfl, ⟨rfl, rfl⟩, rfl, by decide⟩

/-- A commit in which exactly REM_CAP samples fit, and one with a sample too many. -/
def full (extra : Nat) : State := { atCommit .drain (1 + extra) small with rem := List.replicate 65 1, out := List.replicate (1 + extra) 2 }

theorem witness_DrainCommitAppends :
    (EngineHas .drain (full 0) ∧ (full 0).ph = .snapped ∧ (full 0).j = (full 0).nd) ∧
    (full 0).rem.length + (full 0).out.length = (full 0).params.remCap ∧
    (EngineHas .drain (full 1) ∧ (full 1).ph = .snapped ∧ (full 1).j = (full 1).nd) ∧
    (full 1).rem.length + (full 1).out.length = (full 1).params.remCap + 1 :=
  ⟨⟨⟨rfl, rfl⟩, rfl, rfl⟩, rfl, ⟨⟨rfl, rfl⟩, rfl, rfl⟩, rfl⟩

theorem witness_CaptureDuringDrainReplacesOneSample :
    race.armed = true ∧ runs (exec .capture race) = true ∧
    race.w.toNat % race.params.n = (race.s0.toNat + race.j) % race.params.n ∧
    race.w.toNat % race.params.n ≠ (race.s0.toNat + { race with j := 1 }.j) % race.params.n := by decide

theorem witness_QuietDrainReturnsTheUnread :
    let s := { three with op := some Command.drain }
    s.params.Valid ∧ s.inputs = [] ∧ s.op = some .drain ∧ s.ph = .accepted ∧ s.unread = [7, 8, 9] := by decide

theorem witness_EveryCommandCommits (c : Command) :
    small.params.Valid ∧ small.inputs = [] ∧ { small with op := some c }.op = some c ∧ small.ph = .accepted :=
  ⟨by decide, rfl, rfl, rfl⟩

theorem witness_CaptureStoresTheInterval :
    small.armed = false ∧ race.armed = true ∧ (1 : Nat) ≠ race.w.toNat % race.params.n := by decide

/-- The largest interval, across the wrap of the clock, and the most negative one (95_test_vectors.md 2.1). -/
theorem witness_CaptureIsExactAcrossTheWrap :
    let s := { small with armed := true, last := 0x80000001, now := 0 }
    let u := { small with armed := true, last := 0x80000000, now := 0 }
    s.params.Valid ∧ s.armed = true ∧ (-2 ^ (s.params.tw - 1) ≤ (2147483647 : Int)) ∧
    ((2147483647 : Int) < 2 ^ (s.params.tw - 1)) ∧
    (s.now.toNat : Int) % 2 ^ s.params.tw = (s.last.toNat + 2147483647) % 2 ^ s.params.tw ∧
    u.params.Valid ∧ u.armed = true ∧ (-2 ^ (u.params.tw - 1) ≤ (-2147483648 : Int)) ∧
    ((-2147483648 : Int) < 2 ^ (u.params.tw - 1)) ∧
    (u.now.toNat : Int) % 2 ^ u.params.tw = (u.last.toNat + (-2147483648)) % 2 ^ u.params.tw := by decide

theorem witness_CaptureAppendsToTheUnread :
    (race.params.Valid ∧ race.armed = true ∧ runs (exec .capture race) = true ∧ race.w + 1 ≠ race.r) ∧
    race.unread.length = race.params.n ∧ { race with r := 1 }.unread.length = race.params.n - 1 ∧
    { race with r := 9 }.w + 1 = { race with r := 9 }.r := by decide

/-- Both sides of each window's two ends (95_test_vectors.md 2.4). -/
theorem witness_MatchingWindows :
    (matchSample 5696 .hdrMark, matchSample 5697 .hdrMark, matchSample 12303 .hdrMark, matchSample 12304 .hdrMark) =
      (false, true, true, false) ∧
    (matchSample 2848 .hdrSpace, matchSample 2849 .hdrSpace, matchSample 6151 .hdrSpace, matchSample 6152 .hdrSpace) =
      (false, true, true, false) ∧
    (matchSample 1424 .rptSpace, matchSample 1425 .rptSpace, matchSample 3075 .rptSpace, matchSample 3076 .rptSpace) =
      (false, true, true, false) ∧
    (matchSample 1070 .oneSpace, matchSample 1071 .oneSpace, matchSample 2309 .oneSpace, matchSample 2310 .oneSpace) =
      (false, true, true, false) ∧
    (matchSample 355 .zeroSpace, matchSample 356 .zeroSpace, matchSample 764 .zeroSpace, matchSample 765 .zeroSpace) =
      (false, true, true, false) := by decide

theorem witness_ScanFindsTheFirstMatch :
    scanSeq [100] .hdrMark = none ∧ (100 : Sample) ∈ [(100 : Sample)] ∧
    scanSeq [50000, 600, 9100, 4500] .hdrMark = some 2 ∧ 1 < 2 := by decide

theorem witness_DecodeChecksHeaderAndLength :
    ([9000, 4500] : TimeSeq).length < 3 ∧
    (matchSample 2250 .rptSpace = true ∧ matchSample 560 .zeroSpace = true) ∧
    (¬ (matchSample 6152 .rptSpace = true ∧ matchSample 560 .zeroSpace = true) ∧ matchSample 6152 .hdrSpace = false) ∧
    (¬ (matchSample 3000 .rptSpace = true ∧ matchSample 1000 .zeroSpace = true) ∧ matchSample 3000 .hdrSpace = true) ∧
    3 ≤ (frame.take 65).length ∧ (frame.take 65).length < 66 := by decide

/-- Both directions of the equivalence for a frame, with its bits. -/
theorem witness_DataExactlyForMatchingPairs :
    decodeSeq frame = .data 0x12345678 ∧ 66 ≤ frame.length ∧ matchSample (frame.getD 1 0) .hdrSpace = true ∧
    matchSample (frame.getD 1 0) .rptSpace = false ∧
    ∀ k < 32, matchSample (markAt frame k) .bitMark = true ∧
      matchSample (spaceAt frame k) (if codeBit 0x12345678 k then .oneSpace else .zeroSpace) = true := by decide

/-- A failing mark and a failing space, and the last bit position. -/
theorem witness_FaultExactlyAtTheFirstBadInterval :
    decodeSeq badMark = .fault 5 .mark 0x10000000 ∧ matchSample (markAt badMark 5) .bitMark = false ∧
    decodeSeq badSpace = .fault 5 .space 0x10000000 ∧
    (matchSample (markAt badSpace 5) .bitMark = true ∧ matchSample (spaceAt badSpace 5) .oneSpace = false ∧
      matchSample (spaceAt badSpace 5) .zeroSpace = false) ∧
    decodeSeq (frame.set 65 2310) = .fault 31 .space 0x12345678 := by decide

/-- Every outcome of an attempt occurs (95_test_vectors.md 2.7), with a fault latched and without. -/
theorem witness_PollCommitRecordsTheOutcome :
    EngineHas .poll (atCommit .poll 0 small) ∧ (atCommit .poll 0 small).ph = .snapped ∧
    (atCommit .poll 0 small).j = (atCommit .poll 0 small).nd ∧ faulted.dstate = .fault ∧ small.dstate = .idle ∧
    attempt [] = .empty ∧ attempt [100, 100] = .noHeader ∧ attempt [40000, 9000, 2250] = .found 1 .short ∧
    attempt [50000, 9000, 2000, 1000] = .found 1 .noMatch ∧ attempt [40000, 9000, 2250, 560, 7] = .found 1 .repeatFrame :=
  ⟨⟨rfl, rfl⟩, by decide⟩

/-- Both directions of each clause at the edges of the header window: none, below it, at its ends, above it. -/
theorem witness_AttemptDecodesFromTheFirstHeader :
    attempt [] = .empty ∧ attempt [5696, 12304] = .noHeader ∧
    attempt [5697, 2250, 560] = .found 0 .repeatFrame ∧ attempt [5696, 12303, 2250, 560, 9000] = .found 1 .repeatFrame ∧
    (∀ m ∈ ([5696, 12304] : TimeSeq), matchSample m .hdrMark = false) ∧
    matchSample (([5696, 12303] : TimeSeq).getD 1 0) .hdrMark = true ∧
    (∀ k < 1, matchSample (([5696, 12303] : TimeSeq).getD k 0) .hdrMark = false) := by
  refine ⟨by decide, by decide, by decide, by decide, ?_, by decide, by decide⟩
  rw [List.forall_mem_cons, List.forall_mem_singleton]
  decide

theorem witness_PollCommitRecordsTheOutcome_data :
    attempt (100000 :: frame ++ [560]) = .found 1 (.data 0x12345678) := by decide

theorem witness_PollCommitRecordsTheOutcome_fault :
    attempt (100000 :: badMark ++ [560]) = .found 1 (.fault 5 .mark 0x10000000) := by decide

/-- The remainder overflows by one sample, or is just full. -/
theorem witness_PollCommitRecordsTheOutcome_overflow :
    EngineHas .poll { full 1 with op := some .poll } ∧ (full 1).rem.length + (full 1).out.length = (full 1).params.remCap + 1 ∧
    (full 0).rem.length + (full 0).out.length = (full 0).params.remCap := ⟨⟨rfl, rfl⟩, rfl, rfl⟩

theorem frame_is_canonical : frame = frameIntervals 0x12345678 := by decide

theorem witness_PollDecodesACanonicalFrame :
    let s := atCommit .poll 0 { State.reset with rem := [100000] ++ (frame ++ [560]) }
    EngineHas .poll s ∧ s.ph = .snapped ∧ s.j = s.nd ∧ s.dstate ≠ .fault ∧
    s.rem.length + s.out.length ≤ s.params.remCap ∧
    s.rem ++ s.out = [100000] ++ (frameIntervals 0x12345678 ++ [560]) ∧
    ∀ m ∈ ([100000] : TimeSeq), matchSample m .hdrMark = false := by
  refine ⟨⟨rfl, rfl⟩, rfl, rfl, by decide, by decide, ?_, ?_⟩
  · rw [← frame_is_canonical]
    rfl
  · rintro m hm
    obtain rfl := List.mem_singleton.mp hm
    decide

theorem witness_FaultAndNoMatchArePersistent :
    attempt (100000 :: badMark) = .found 1 (.fault 5 .mark 0x10000000) ∧
    attempt [50000, 9000, 2000, 1000] = .found 1 .noMatch := by decide

/-- 95_test_vectors.md 1.6: the header and ten pairs, and then the other 22 pairs. -/
theorem witness_ShortAttemptResumesWhole :
    attempt (frame.take 22) = .found 0 .short ∧
    (frame.take 22).drop 0 ++ frame.drop 22 = frameIntervals 0x12345678 ++ [] := by decide

theorem witness_CmdWriteFrame :
    small.agent = .host ∧ runs (exec (decodeWord 1) small) = true ∧ runs (exec (decodeWord 8) small) = true := by decide

theorem witness_ShortCommandFrame :
    (EngineHas .nop (turn .nop faulted) ∧ EngineHas .start (turn .start faulted) ∧ EngineHas .stop (turn .stop faulted) ∧
      EngineHas .rbReset (turn .rbReset faulted) ∧ EngineHas .sdReset (turn .sdReset faulted) ∧
      EngineHas .reset (turn .reset faulted)) ∧
    runs (exec .nop (turn .nop faulted)) = true ∧ runs (exec .start (turn .start faulted)) = true ∧
    runs (exec .stop (turn .stop faulted)) = true ∧ runs (exec .rbReset (turn .rbReset faulted)) = true ∧
    runs (exec .sdReset (turn .sdReset faulted)) = true ∧ runs (exec .reset (turn .reset faulted)) = true := by
  refine ⟨⟨⟨rfl, rfl⟩, ⟨rfl, rfl⟩, ⟨rfl, rfl⟩, ⟨rfl, rfl⟩, ⟨rfl, rfl⟩, ⟨rfl, rfl⟩⟩, ?_⟩
  decide

/-- SNAP leaves the command in flight; the commit does not. -/
theorem witness_DrainAndPollFrame :
    (EngineHas .drain (turn .drain three) ∧ EngineHas .poll (atCommit .poll 0 three)) ∧
    look (fun t => t.op) (exec .drain (turn .drain three)) = some (some .drain) ∧
    look (fun t => t.op) (exec .poll (atCommit .poll 0 three)) = some none := by
  refine ⟨⟨⟨rfl, rfl⟩, ⟨rfl, rfl⟩⟩, ?_⟩
  decide

/-- The first byte below the stored word, the first above it, and an unarmed capture. -/
theorem witness_CaptureFrame :
    runs (exec .capture race) = true ∧ race.storeAddr = 0x10000 ∧ 0xFFFF < race.storeAddr ∧
    race.storeAddr + 4 ≤ 0x10004 ∧ runs (exec .capture small) = true ∧ small.armed = false := by decide

theorem witness_FunctionsFrame :
    runs (exec (.matchOp 560 .bitMark) three) = true ∧ runs (exec (.scan [9000] .hdrMark) three) = true ∧
    runs (exec (.decode [9000]) three) = true := by decide

/-- s with one 32-bit read to come. -/
def reading (off : BitVec 18) (s : State) : State := { s with inputs := [.hostRead off 4] }

theorem witness_RegisterReads :
    three.params.Valid ∧ three.rem.length ≤ three.params.remCap ∧ (reading 0x00000 three).inputs = .hostRead 0x00000 4 :: [] ∧
    (reading 0x0002C three).inputs = .hostRead 0x0002C 4 :: [] := by decide

/-- The last slot and the first index above, the last sample of REM and the first index above, and the last index. -/
theorem witness_WindowReads :
    7 < three.params.n ∧ three.params.n ≤ 8 ∧ 1 < three.rem.length ∧ three.rem.length ≤ 2 ∧ three.params.n ≤ 16383 ∧
    (reading (BitVec.ofNat 18 (0x10000 + 4 * 7)) three).inputs = .hostRead 0x1001C 4 :: [] := by decide

/-- Both ends of both unlisted ranges, and an offset whose writes are ignored. -/
theorem witness_UnlistedOffsetsReadZeroAndIgnoreWrites :
    0x00030 ≤ (0x00030 : BitVec 18).toNat ∧ (0x0FFFC : BitVec 18).toNat < 0x10000 ∧
    0x30000 ≤ (0x30000 : BitVec 18).toNat ∧ (0x3FFFC : BitVec 18).toNat % 4 = 0 ∧
    look (fun t => t.rdata) (step (reading 0x00030 three)) = some (some 0) ∧
    look (fun t => t.rdata) (step (reading 0x0FFFC three)) = some (some 0) ∧
    look (fun t => t.rdata) (step (reading 0x3FFFC three)) = some (some 0) ∧
    (0x0000C : BitVec 18) ≠ 0x00000 ∧ (0x0000C : BitVec 18) ≠ 0x00004 ∧ (0x0000C : BitVec 18) ≠ 0x00008 := by decide

theorem witness_CtrlAndStatusWrites :
    ({ small with inputs := [.hostWrite 0x00000 4 1] } : State).inputs = .hostWrite 0x00000 4 1 :: [] ∧
    ({ small with inputs := [.hostWrite 0x00008 4 0x70] } : State).inputs = .hostWrite 0x00008 4 0x70 :: [] := by decide

theorem witness_UndefinedAccessesAreRefused :
    ({ small with inputs := [.hostRead 0x00008 3] } : State).inputs = .hostRead 0x00008 3 :: [] ∧ (3 : Nat) ≠ 4 ∧
    ({ small with inputs := [.hostWrite 0x00001 4 0] } : State).inputs = .hostWrite 0x00001 4 0 :: [] ∧
    (0x00001 : BitVec 18).toNat % 4 ≠ 0 := by decide

theorem witness_ReadsHaveNoSideEffect :
    (reading 0x20000 three).inputs = .hostRead 0x20000 4 :: [] ∧ runs (step (reading 0x20000 three)) = true := by decide

theorem witness_RstResetsEverything : ({ faulted with inputs := [.rst] } : State).inputs = .rst :: [] := rfl

theorem witness_ResetHoldsTheTabledValues : ∃ p, small = State.resetWith p := ⟨_, rfl⟩

/-- The smallest and the largest legal parameters (00_scope.md R5). -/
theorem witness_InvHoldsAtReset : Params.Valid ⟨1, 66, 2⟩ ∧ Params.Valid ⟨14, 16384, 32⟩ := by decide

/-- A state with the invariant that is not the reset state: a latched fault, unread samples and a drain under way. -/
def busy : State :=
  { faulted with
    mem := three.mem, w := 75, r := 72, op := some .drain, ph := .snapped, w0 := 75, nd := 3, s0 := 72, j := 1, out := [7] }

theorem busy_inv : busy.Inv where
  params := by decide
  mem := by decide
  rem := by decide
  last := by decide
  result := by decide
  dstate := by show resultKind busy.result = 3; decide
  partialBits := by decide
  flight := by decide

theorem witness_StepKeepsInv : busy.Inv ∧ ∃ t, step busy = .next t := ⟨busy_inv, _, rfl⟩

theorem witness_StepNeverFaultsUnderInv : busy.Inv := busy_inv

/-- Each way a cursor moves: a capture, a resetting command, RST, a commit. -/
theorem witness_WhoMovesTheCursors :
    look (fun t => t.w) (step { race with inputs := [.edge 5] }) = some 9 ∧
    look (fun t => (t.w, t.r)) (step (turn .rbReset faulted)) = some (0, 0) ∧
    look (fun t => (t.w, t.r)) (step { faulted with inputs := [.rst] }) = some (0, 0) ∧
    look (fun t => t.r) (step { busy with j := 3 }) = some 75 := by decide

theorem witness_OnlyCaptureWritesASlot :
    look (fun t => t.slot 2) (step { three with armed := true, w := 2, inputs := [.edge 5] }) = some 5 ∧ three.slot 2 = 7 := by
  decide

theorem witness_OnlyDataChangesValue :
    look (fun t => t.value) (step (atCommit .poll 0 { State.reset with rem := frame })) = some 0x12345678 ∧
    look (fun t => t.value) (step { faulted with inputs := [.rst] }) = some 0 ∧ faulted.value ≠ 0 := by decide

theorem witness_OnlyResetsLeaveFault :
    faulted.dstate = .fault ∧ look (fun t => t.dstate) (step (turn .sdReset faulted)) = some .idle ∧
    look (fun t => t.dstate) (step { faulted with inputs := [.rst] }) = some .idle := by decide

theorem witness_StickyFlagsStay :
    let s := { small with errBusy := true, errCmd := true, remOvf := true, inputs := [.hostWrite 0x00008 4 0x70] }
    look (fun t => (t.errBusy, t.errCmd, t.remOvf)) (step s) = some (false, false, false) ∧
    look (fun t => t.errBusy) (step { s with inputs := [.rst] }) = some false := by decide

theorem witness_WhoWritesLastAndArmed :
    look (fun t => (t.last, t.armed)) (step { turn .start small with inputs := [.engine 5] }) = some (5, true) ∧
    look (fun t => t.armed) (step (turn .stop race)) = some false ∧
    look (fun t => t.last) (step { race with inputs := [.edge 5] }) = some 5 := by decide

theorem witness_ResultsAppearOnlyAtTheCommit : look (fun t => t.op) (step busy) = some (some .drain) := by decide

theorem witness_ParametersAreConstant : runs (step busy) = true := by decide

end Sys2Proof.Tests
end

section
/-! PROOFS of 00_scope.md: the wrap-safe difference, and the sample an armed CAPTURE stores. -/

namespace Sys2Proof.Machine

/-- 00_scope.md R9: sdiff_TW(a, b) is the only integer of its range that brings b to a modulo 2^TW. Shifted up by
2^(TW-1), that range is the range of the remainders modulo 2^TW. -/
theorem sdiffTW_eq_of_emod_eq {tw : Nat} {a b d : Int} (htw : 0 < tw) (hlo : -2 ^ (tw - 1) ≤ d)
    (hhi : d < 2 ^ (tw - 1)) (h : a % 2 ^ tw = (b + d) % 2 ^ tw) : sdiffTW tw a b = d := by
  have hpow : (2 : Int) ^ tw = 2 * 2 ^ (tw - 1) := (mul_pow_sub_one htw.ne' 2).symm
  have hshift : a - b + 2 ^ (tw - 1) ≡ d + 2 ^ (tw - 1) [ZMOD 2 ^ tw] := by
    have hdiff : a - b ≡ b + d - b [ZMOD 2 ^ tw] := Int.ModEq.sub_right b h
    rw [add_sub_cancel_left] at hdiff
    exact hdiff.add_right _
  have hrem : (d + 2 ^ (tw - 1)) % 2 ^ tw = d + 2 ^ (tw - 1) := Int.emod_eq_of_lt (by omega) (by omega)
  rw [sdiffTW, hshift.eq, hrem, add_sub_cancel_right]

/-- 00_scope.md R9: the 32-bit pattern of an integer that fits 32 bits denotes it again. -/
theorem int32_tc32 {x : Int} (hlo : -2 ^ 31 ≤ x) (hhi : x < 2 ^ 31) : int32 (tc32 x) = x :=
  BitVec.toInt_ofInt_eq_self (by decide) hlo hhi

/-- A clock of at most 32 bits fits its word, so sampling it takes the remainder modulo 2^TW (10_state.md R22). -/
theorem lowBits_toNat {tw : Nat} (h : tw ≤ 32) (x : Word) : (lowBits tw x).toNat = x.toNat % 2 ^ tw := by
  have hle : 2 ^ tw ≤ 2 ^ 32 := Nat.pow_le_pow_right (by decide) h
  have hlt : x.toNat % 2 ^ tw < 2 ^ 32 := (Nat.mod_lt _ (Nat.two_pow_pos tw)).trans_le hle
  rw [lowBits, BitVec.toNat_ofNat, Nat.mod_eq_of_lt hlt]

/-- The interval of a capture, by the clock pins as they stand (40_ring_buffer.md R110). -/
theorem interval_eq_of_emod_eq {s : State} {d : Int} (hp : s.params.Valid) (hlo : -2 ^ (s.params.tw - 1) ≤ d)
    (hhi : d < 2 ^ (s.params.tw - 1))
    (h : (s.now.toNat : Int) % 2 ^ s.params.tw = (s.last.toNat + d) % 2 ^ s.params.tw) : s.interval = d := by
  obtain ⟨-, -, -, -, htwLo, htwHi⟩ := hp
  have hnow : (s.sampleNow.toNat : Int) % 2 ^ s.params.tw = s.now.toNat % 2 ^ s.params.tw := by
    rw [State.sampleNow, lowBits_toNat htwHi]
    push_cast
    exact Int.emod_emod _ _
  exact sdiffTW_eq_of_emod_eq (by omega) hlo hhi (hnow.trans h)

/-- Slots are read from the slot store alone, which the advance of w leaves as it is. -/
@[simp] theorem slot_advanceWrite (s : State) (t : Word) (i : Nat) : (s.advanceWrite t).slot i = s.slot i := by
  simp [State.slot]

/-- Settles O20: the interval is d by the uniqueness of R9's difference, and d fits the 32-bit sample because TW <= 32. -/
theorem captureIsExactAcrossTheWrap : Obligations.CaptureIsExactAcrossTheWrap := by
  intro s d hp harmed hlo hhi hmod
  have hint : s.interval = d := interval_eq_of_emod_eq hp hlo hhi hmod
  have hhalf : (2 : Int) ^ (s.params.tw - 1) ≤ 2 ^ 31 := by
    obtain ⟨-, -, -, -, -, htwHi⟩ := hp
    exact pow_le_pow_right₀ (by decide) (by omega)
  refine ⟨(s.storeSample (tc32 s.interval)).advanceWrite s.sampleNow, by rw [exec_capture, if_pos harmed], ?_⟩
  have hslot : (s.storeSample (tc32 s.interval)).slot (s.w.toNat % s.params.n) = tc32 s.interval :=
    slot_storeSample_same s _
  rw [slot_advanceWrite, hslot, hint]
  exact int32_tc32 (by omega) (by omega)

end Sys2Proof.Machine
end

section
/-! PROOFS of 10_state.md, what one step can do: a step is a named update of the state in a new environment. -/

namespace Sys2Proof.Machine

/-- The fields that belong to no rule on the machine's own state: the clock pins and the model's own fields. -/
structure Env where
  now : Word
  inputs : List Input
  agent : Agent
  rdata : Option Word
  draws : Nat

/-- s in the environment e, with every piece of NECRX's own state as before. -/
def State.withEnv (s : State) (e : Env) : State :=
  { s with now := e.now, inputs := e.inputs, agent := e.agent, rdata := e.rdata, draws := e.draws }

@[simp] theorem State.withEnv_fields (s : State) (e : Env) :
    (s.withEnv e).params = s.params ∧ (s.withEnv e).mem = s.mem ∧ (s.withEnv e).w = s.w ∧ (s.withEnv e).r = s.r ∧
    (s.withEnv e).last = s.last ∧ (s.withEnv e).armed = s.armed ∧ (s.withEnv e).rem = s.rem ∧
    (s.withEnv e).dstate = s.dstate ∧ (s.withEnv e).result = s.result ∧ (s.withEnv e).value = s.value ∧
    (s.withEnv e).partialBits = s.partialBits ∧ (s.withEnv e).resync = s.resync ∧
    (s.withEnv e).errBusy = s.errBusy ∧ (s.withEnv e).errCmd = s.errCmd ∧ (s.withEnv e).remOvf = s.remOvf ∧
    (s.withEnv e).op = s.op ∧ (s.withEnv e).ph = s.ph ∧ (s.withEnv e).w0 = s.w0 ∧ (s.withEnv e).nd = s.nd ∧
    (s.withEnv e).s0 = s.s0 ∧ (s.withEnv e).j = s.j ∧ (s.withEnv e).out = s.out ∧ (s.withEnv e).rs = s.rs ∧
    (s.withEnv e).era = s.era := by
  simp [State.withEnv]

/-- What RST leaves of the fields the statements speak of (70_reset_and_hazards.md R240). -/
@[simp] theorem State.powerOn_fields (s : State) :
    s.powerOn.params = s.params ∧ s.powerOn.mem = [] ∧ s.powerOn.w = 0 ∧ s.powerOn.r = 0 ∧
    s.powerOn.last = lowBits s.params.tw (Config.freeLast (s.era + 1)) ∧ s.powerOn.rem = [] ∧
    s.powerOn.dstate = .idle ∧ s.powerOn.result = 0 ∧ s.powerOn.partialBits = 0 ∧ s.powerOn.op = none := by
  simp [State.powerOn, State.resetWith]

/-- Everything a step can make of s, by the rule that allows it. The engine's turn of a command is named by what it does:
START of an armed machine only ends itself, as NOP does. -/
inductive Turn (s : State) : State → Prop
  | stay (e : Env) : Turn s (s.withEnv e)
  | capture (e : Env) (hi : ∃ now rest, s.inputs = .edge now :: rest) (harmed : s.armed = true) :
      Turn s (((s.withEnv e).storeSample (tc32 (s.withEnv e).interval)).advanceWrite (s.withEnv e).sampleNow)
  | take (e : Env) (c : Command) (hop : s.op = none) : Turn s ((s.withEnv e).take c)
  | setErrBusy (e : Env) : Turn s (s.withEnv e).setErrBusy
  | setErrCmd (e : Env) : Turn s (s.withEnv e).setErrCmd
  | writeCtrl (e : Env) (v : Word) : Turn s ((s.withEnv e).writeCtrl v)
  | clearFlags (e : Env) (v : Word) (hi : ∃ rest, s.inputs = .hostWrite 0x00008 4 v :: rest) :
      Turn s ((s.withEnv e).clearFlags v)
  | finish (e : Env) : Turn s (s.withEnv e).finish
  | start (e : Env) (hop : s.op = some .start) (harmed : s.armed = false) :
      Turn s (State.finish { s.withEnv e with last := (s.withEnv e).sampleNow, armed := true })
  | stop (e : Env) (hop : s.op = some .stop) : Turn s (State.finish { s.withEnv e with armed := false })
  | rbReset (e : Env) (hop : s.op = some .rbReset) : Turn s (s.withEnv e).rewindRing.finish
  | sdReset (e : Env) (hop : s.op = some .sdReset) : Turn s (s.withEnv e).clearDecoder.finish
  | reset (e : Env) (hop : s.op = some .reset) : Turn s (s.withEnv e).rewindRing.clearDecoder.finish
  | snap (e : Env) (hop : s.op = some .drain ∨ s.op = some .poll) : Turn s (s.withEnv e).snap
  | read (e : Env) (hop : s.op = some .drain ∨ s.op = some .poll) (hph : s.ph = .snapped) (hj : s.j < s.nd) :
      Turn s (s.withEnv e).readSlot
  | drain (e : Env) (hop : s.op = some .drain) (hph : s.ph = .snapped) (hj : s.j = s.nd) :
      Turn s (s.withEnv e).drainCommit.finish
  | poll (e : Env) (hop : s.op = some .poll) (hph : s.ph = .snapped) (hj : s.j = s.nd) :
      Turn s (commitPoll (s.withEnv e))
  | rst (e : Env) (hi : ∃ rest, s.inputs = .rst :: rest) : Turn s (s.withEnv e).powerOn

/-- The engine's turn of the command in flight. -/
theorem turn_of_exec_engine {s t : State} {c : Command} {e : Env} (he : e.agent = .eng) (hop : s.op = some c)
    (h : exec c.instr (s.withEnv e) = .next t) : Turn s t := by
  rcases exec_engine (s := s.withEnv e) he (by simpa using hop) h with
    ⟨rfl, rfl⟩ | ⟨rfl, rfl⟩ | ⟨rfl, rfl⟩ | ⟨rfl, rfl⟩ | ⟨rfl, rfl⟩ | ⟨rfl, rfl⟩ | ⟨hc, -, rfl⟩ | ⟨hc, hph, hj, rfl⟩ |
    ⟨rfl, hph, hj, rfl⟩ | ⟨rfl, hph, hj, rfl⟩
  case inr.inl =>
    rcases commitStart_cases (s.withEnv e) with ⟨-, heq⟩ | ⟨harmed, heq⟩ <;> rw [heq]
    · exact .finish e
    · exact .start e hop (by simpa using harmed)
  · exact .finish e
  · exact .stop e hop
  · exact .rbReset e hop
  · exact .sdReset e hop
  · exact .reset e hop
  · exact .snap e (by simpa [hop] using hc)
  · exact .read e (by simpa [hop] using hc) (by simpa using hph) (by simpa using hj)
  · exact .drain e hop (by simpa using hph) (by simpa using hj)
  · exact .poll e hop (by simpa using hph) (by simpa using hj)

/-- The host's write of a word to CMD. -/
theorem turn_of_exec_host {s t : State} {v : Word} {e : Env} (he : e.agent = .host)
    (h : exec (decodeWord v) (s.withEnv e) = .next t) : Turn s t := by
  rw [exec_host v (s := s.withEnv e) he] at h
  obtain rfl := Host.Outcome.next.inj h
  cases commandOfWord v with
  | some c =>
    rcases accept_cases (s.withEnv e) c with ⟨hop, heq⟩ | ⟨-, heq⟩ <;> simp only [heq]
    · exact .take e c (by simpa using hop)
    · exact .setErrBusy e
  | none =>
    rcases rejectWord_cases (s.withEnv e) with ⟨-, heq⟩ | ⟨-, heq⟩ <;> simp only [heq]
    · exact .setErrCmd e
    · exact .setErrBusy e

/-- The host's write of v to a register other than CMD. -/
theorem turn_of_writeReg {s : State} {off : BitVec 18} {v : Word} {rest : List Input} (e : Env)
    (hi : s.inputs = .hostWrite off 4 v :: rest) : Turn s ((s.withEnv e).writeReg off.toNat v) := by
  unfold State.writeReg
  split
  · exact .writeCtrl e v
  · split
    · next hoff =>
      obtain rfl : off = 0x00008 := BitVec.eq_of_toNat_eq hoff
      exact .clearFlags e v ⟨rest, hi⟩
    · exact .stay e

/-- Every step is a turn: step_cases, the machine's own state set apart from its environment. -/
theorem turn_of_step {s t : State} (h : step s = .next t) : Turn s t := by
  rcases step_cases h with ⟨rfl, -, -⟩ | ⟨now, rest, -, -, rfl⟩ | ⟨c, s', hop, hx, hs⟩ | ⟨now, rest, hi, hx⟩ |
    ⟨off, width, rest, -, -, -, rfl⟩ | ⟨v, rest, -, hx⟩ | ⟨off, v, rest, hi, -, -, rfl⟩ | ⟨rest, hi, rfl⟩
  · exact .stay ⟨t.now, t.inputs, t.agent, t.rdata, t.draws⟩
  · exact .stay ⟨now, rest, s.agent, s.rdata, s.draws⟩
  · rcases hs with ⟨-, rfl⟩ | ⟨now, rest, -, rfl⟩
    · exact turn_of_exec_engine (e := ⟨Config.freeNow s.draws, s.inputs, .eng, s.rdata, s.draws + 1⟩) rfl hop hx
    · exact turn_of_exec_engine (e := ⟨now, rest, .eng, s.rdata, s.draws⟩) rfl hop hx
  · rw [exec_capture] at hx
    obtain rfl := Host.Outcome.next.inj hx
    split
    · next harmed => exact .capture ⟨now, rest, .cap, s.rdata, s.draws⟩ ⟨now, rest, hi⟩ harmed
    · exact .stay ⟨now, rest, .cap, s.rdata, s.draws⟩
  · exact .stay ⟨s.now, rest, .host, some (s.readReg off.toNat), s.draws⟩
  · exact turn_of_exec_host (e := ⟨s.now, rest, .host, s.rdata, s.draws⟩) rfl hx
  · exact turn_of_writeReg ⟨s.now, rest, .host, s.rdata, s.draws⟩ hi
  · exact .rst ⟨s.now, rest, s.agent, s.rdata, s.draws⟩ ⟨rest, hi⟩

end Sys2Proof.Machine
end

section
/-! PROOFS of 10_state.md, the invariant: what a RESULT word shows, and that every turn keeps the invariant. -/

namespace Sys2Proof.Machine

-- RESULT (10_state.md R43).

/-- A word appended below another adds its number to the other's, shifted up. -/
theorem toNat_append_eq_add {m n : Nat} (x : BitVec m) (y : BitVec n) : (x ++ y).toNat = x.toNat * 2 ^ n + y.toNat := by
  rw [BitVec.toNat_append, ← Nat.shiftLeft_add_eq_or_of_lt y.isLt, Nat.shiftLeft_eq]

/-- The number of a RESULT word, by its fields. -/
theorem resultWord_toNat (kind : BitVec 2) (reason : BitVec 3) (bit : BitVec 5) (part : BitVec 1) :
    (resultWord kind reason bit part).toNat =
      kind.toNat + 4 * reason.toNat + 256 * bit.toNat + 8192 * part.toNat := by
  simp only [resultWord, toNat_append_eq_add, BitVec.toNat_ofNat]
  omega

/-- A RESULT word shows the fields it is made of, and 0 in its unused bits. -/
@[simp] theorem resultWord_fields (kind : BitVec 2) (reason : BitVec 3) (bit : BitVec 5) (part : BitVec 1) :
    resultKind (resultWord kind reason bit part) = kind ∧ resultReason (resultWord kind reason bit part) = reason ∧
    resultFaultBit (resultWord kind reason bit part) = bit ∧
    resultFaultPart (resultWord kind reason bit part) = part ∧
    (resultWord kind reason bit part).extractLsb' 5 3 = 0#3 ∧
    (resultWord kind reason bit part).extractLsb' 14 18 = 0#18 := by
  have hk := kind.isLt
  have hr := reason.isLt
  have hb := bit.isLt
  have hp := part.isLt
  refine ⟨?_, ?_, ?_, ?_, ?_, ?_⟩ <;> apply BitVec.eq_of_toNat_eq <;>
    simp only [resultKind, resultReason, resultFaultBit, resultFaultPart, BitVec.extractLsb'_toNat, resultWord_toNat,
      Nat.shiftRight_eq_div_pow, BitVec.toNat_ofNat] <;> omega

theorem resultFormat_none (x : Reason) : ResultFormat (resultNone x) := by
  cases x <;> simp [ResultFormat, resultNone, reasonCode]

theorem resultFormat_repeat : ResultFormat resultRepeat := by simp [ResultFormat, resultRepeat]

theorem resultFormat_data : ResultFormat resultData := by simp [ResultFormat, resultData]

theorem resultFormat_fault (k : Nat) (q : Part) : ResultFormat (resultFault k q) := by
  simp [ResultFormat, resultFault]

@[simp] theorem resultKind_none (x : Reason) : resultKind (resultNone x) = 0 := by simp [resultNone]

theorem resultKind_repeat : resultKind resultRepeat = 1 := by simp [resultRepeat]

theorem resultKind_data : resultKind resultData = 2 := by simp [resultData]

@[simp] theorem resultKind_fault (k : Nat) (q : Part) : resultKind (resultFault k q) = 3 := by simp [resultFault]

/-- A RESULT of another kind than NONE shows no reason of a POLL without a frame. -/
theorem ne_resultNone_of_kind {x : Word} (h : resultKind x ≠ 0) (y : Reason) : x ≠ resultNone y := by
  rintro rfl
  exact h (resultKind_none y)

/-- NONE/EMPTY and NONE/NO_HEADER are neither of the words that belong to HEADER_MATCHED. -/
theorem resultNone_of_idle {x : Reason} (h : x = .empty ∨ x = .noHeader) :
    resultNone x ≠ resultNone .short ∧ resultNone x ≠ resultNone .noMatch := by
  rcases h with rfl | rfl <;> decide

-- DSTATE and PARTIAL beside RESULT (10_state.md R31, R34).

/-- While RESULT shows no fault nothing is asked of PARTIAL. -/
theorem partialOk_of_kind {s : State} (h : resultKind s.result ≠ 3) : s.PartialOk := fun hk => absurd hk h

/-- The decoder's part of the invariant: RESULT in its format and in accord with DSTATE and PARTIAL. -/
def State.DecoderOk (s : State) : Prop := ResultFormat s.result ∧ s.DStateOk ∧ s.PartialOk

/-- An idle decoder whose RESULT is NONE/EMPTY or NONE/NO_HEADER. -/
theorem decoderOk_of_none {s : State} {x : Reason} (hx : x = .empty ∨ x = .noHeader) (hd : s.dstate = .idle)
    (hr : s.result = resultNone x) : s.DecoderOk := by
  refine ⟨hr ▸ resultFormat_none x, ?_, partialOk_of_kind (by simp [hr])⟩
  simpa only [State.DStateOk, hd, hr] using resultNone_of_idle hx

/-- A decoder in HEADER_MATCHED whose RESULT is NONE/SHORT or NONE/NO_MATCH. -/
theorem decoderOk_of_headerMatched {s : State} {x : Reason} (hx : x = .short ∨ x = .noMatch)
    (hd : s.dstate = .headerMatched) (hr : s.result = resultNone x) : s.DecoderOk := by
  refine ⟨hr ▸ resultFormat_none x, ?_, partialOk_of_kind (by simp [hr])⟩
  simp only [State.DStateOk, hd, hr]
  exact hx.imp (congrArg resultNone) (congrArg resultNone)

/-- An idle decoder whose RESULT is a frame. -/
theorem decoderOk_of_frame {s : State} (hd : s.dstate = .idle) (hr : s.result = resultRepeat ∨ s.result = resultData) :
    s.DecoderOk := by
  have hformat : ResultFormat s.result := by
    rcases hr with hr | hr <;> rw [hr]
    · exact resultFormat_repeat
    · exact resultFormat_data
  have hkind : resultKind s.result ≠ 0 ∧ resultKind s.result ≠ 3 := by
    rcases hr with hr | hr <;> simp [hr, resultKind_repeat, resultKind_data]
  refine ⟨hformat, ?_, partialOk_of_kind hkind.2⟩
  simpa only [State.DStateOk, hd] using ⟨ne_resultNone_of_kind hkind.1 _, ne_resultNone_of_kind hkind.1 _⟩

/-- A cleared decoder's RESULT, 0, is NONE/EMPTY (43_streaming.md R185). -/
theorem decoderOk_of_cleared {s : State} (hd : s.dstate = .idle) (hr : s.result = 0) : s.DecoderOk :=
  decoderOk_of_none (.inl rfl) hd (hr.trans (by decide))

-- What a decode attempt records.

/-- An attempt answers what DECODE answers for a suffix. -/
theorem eq_decodeSeq_of_attempt_eq_found {t : TimeSeq} {i : Nat} {d : DecodeOut} (h : attempt t = .found i d) :
    d = decodeSeq (t.drop i) := by
  unfold attempt at h
  split at h
  · cases h
  · split at h
    · cases h
    · cases h; rfl

/-- 42_nec_decoder.md R162: a fault is at one of the 32 bits, and the value so far is 0 below the bits received. -/
theorem fault_bounds_of_decodeSeq {seq : TimeSeq} {k : Nat} {q : Part} {p : Word}
    (h : decodeSeq seq = .fault k q p) : k < 32 ∧ ∀ b < 32 - k, p.getLsbD b = false := by
  obtain ⟨⟨hlen, -, -⟩, hpairs⟩ := (decodeSeq_iff_pairs (by simp) (by simp) (by simp)).mp h
  have hl : 2 * 32 ≤ (seq.drop 2).length := by rw [List.length_drop]; omega
  obtain ⟨d, hd, rfl, -, -, hlow, -⟩ := (decodePairs_fault_iff rfl hl (by simp)).mp hpairs
  exact ⟨by omega, by simpa using hlow⟩

/-- A record only ever shortens REM. -/
theorem record_rem_length_le (s : State) (a : Attempt) : (s.record a).rem.length ≤ s.rem.length := by
  cases a with
  | empty => simp [State.record]
  | noHeader => simp [State.record]
  | found i d =>
    cases d <;> simp [State.record]
    case fault => split <;> simp

/-- 43_streaming.md R190: the entry of a fault that DECODE reports leaves RESULT, DSTATE and PARTIAL in accord. -/
theorem takeDecodeFault_decoderOk (s : State) (i : Nat) (q : Part) {k : Nat} {p : Word} (hk : k < 32)
    (hp : ∀ b < 32 - k, p.getLsbD b = false) : (s.takeDecodeFault i k q p).DecoderOk := by
  refine ⟨resultFormat_fault k q, ?_, fun _ b hb => ?_⟩
  · cases hrs : s.rs <;> simp only [State.DStateOk, State.takeDecodeFault_fields, hrs, if_true, Bool.false_eq_true,
      if_false]
    · exact resultKind_fault k q
    · exact ⟨ne_resultNone_of_kind (by simp) _, ne_resultNone_of_kind (by simp) _⟩
  · have hbit : (resultFaultBit (resultFault k q)).toNat = k := by simp [resultFault]; omega
    simp only [State.takeDecodeFault_fields, hbit] at hb ⊢
    exact hp b hb

/-- 43_streaming.md R183 and R190: every outcome of an attempt is recorded in RESULT's format and in accord with DSTATE and
PARTIAL. -/
theorem record_decoderOk (s : State) (t : TimeSeq) : (s.record (attempt t)).DecoderOk := by
  cases ha : attempt t with
  | empty => exact decoderOk_of_none (.inl rfl) rfl rfl
  | noHeader => exact decoderOk_of_none (.inr rfl) rfl rfl
  | found i d =>
    cases d with
    | short => exact decoderOk_of_headerMatched (.inl rfl) rfl rfl
    | noMatch => exact decoderOk_of_headerMatched (.inr rfl) rfl rfl
    | repeatFrame => exact decoderOk_of_frame rfl (.inl rfl)
    | data v => exact decoderOk_of_frame rfl (.inr rfl)
    | fault k q p =>
      obtain ⟨hk, hp⟩ := fault_bounds_of_decodeSeq (eq_decodeSeq_of_attempt_eq_found ha).symm
      exact takeDecodeFault_decoderOk s i q hk hp

-- The invariant at a commit. s.finish.Inv is the invariant without its clause on the command in flight.

theorem State.Inv.finish {s : State} (h : s.Inv) : s.finish.Inv :=
  ⟨h.params, h.mem, h.rem, h.last, h.result, h.dstate, h.partialBits, fun hop => absurd rfl hop⟩

theorem inv_finish_rewindRing {s : State} (h : s.finish.Inv) : s.rewindRing.finish.Inv :=
  ⟨h.params, h.mem, h.rem, h.last, h.result, h.dstate, h.partialBits, fun hop => absurd rfl hop⟩

theorem inv_finish_clearDecoder {s : State} (h : s.finish.Inv) : s.clearDecoder.finish.Inv := by
  obtain ⟨hresult, hdstate, hpartial⟩ := decoderOk_of_cleared (s := s.clearDecoder.finish) rfl rfl
  exact ⟨h.params, h.mem, Nat.zero_le _, h.last, hresult, hdstate, hpartial, fun hop => absurd rfl hop⟩

theorem inv_finish_drainCommit {s : State} (h : s.finish.Inv) : s.drainCommit.finish.Inv := by
  refine ⟨h.params, h.mem, ?_, h.last, h.result, h.dstate, h.partialBits, fun hop => absurd rfl hop⟩
  simp only [State.finish_fields, State.drainCommit_fields, appended_length]
  exact Nat.min_le_right _ _

theorem inv_finish_record {s : State} (h : s.finish.Inv) (t : TimeSeq) : (s.record (attempt t)).finish.Inv := by
  obtain ⟨hparams, hmem, -, -, hlast, -⟩ := record_same s (attempt t)
  obtain ⟨hresult, hdstate, hpartial⟩ := record_decoderOk s t
  refine ⟨?_, ?_, ?_, ?_, hresult, hdstate, hpartial, fun hop => absurd rfl hop⟩
  · simpa [hparams] using h.params
  · simpa [State.MemOk, hparams, hmem] using h.mem
  · simpa [hparams] using (record_rem_length_le s (attempt t)).trans h.rem
  · simpa [hparams, hlast] using h.last

theorem inv_finish_decodeOnce {s : State} (h : s.finish.Inv) : s.decodeOnce.finish.Inv := by
  unfold State.decodeOnce
  split
  · exact h
  · exact inv_finish_record h _

-- The invariant between accept and commit.

theorem State.Inv.withEnv {s : State} (h : s.Inv) (e : Env) : (s.withEnv e).Inv :=
  ⟨h.params, h.mem, h.rem, h.last, h.result, h.dstate, h.partialBits, h.flight⟩

/-- No part of the invariant looks at CTRL or at a sticky flag. -/
theorem State.Inv.setFlags {s : State} (h : s.Inv) (resync errBusy errCmd remOvf : Bool) :
    State.Inv { s with resync := resync, errBusy := errBusy, errCmd := errCmd, remOvf := remOvf } :=
  ⟨h.params, h.mem, h.rem, h.last, h.result, h.dstate, h.partialBits, h.flight⟩

theorem State.Inv.take {s : State} (h : s.Inv) (c : Command) : (s.take c).Inv :=
  ⟨h.params, h.mem, h.rem, h.last, h.result, h.dstate, h.partialBits, fun _ hph => nomatch hph⟩

theorem State.Inv.snap {s : State} (h : s.Inv) (hop : s.op = some .drain ∨ s.op = some .poll) : s.snap.Inv :=
  ⟨h.params, h.mem, h.rem, h.last, h.result, h.dstate, h.partialBits,
    fun _ _ => ⟨hop, rfl, rfl, Nat.zero_le _, rfl⟩⟩

theorem State.Inv.readSlot {s : State} (h : s.Inv) (hj : s.j < s.nd) : s.readSlot.Inv := by
  refine ⟨h.params, h.mem, h.rem, h.last, h.result, h.dstate, h.partialBits, fun hop hph => ?_⟩
  obtain ⟨hdrain, hnd, hs0, -, hout⟩ := h.flight hop hph
  exact ⟨hdrain, hnd, hs0, hj, by simp [hout]⟩

/-- A capture leaves the command in flight alone: neither r nor W0 moves (40_ring_buffer.md R117). -/
theorem State.Inv.capture {s : State} (h : s.Inv) (v : Sample) :
    ((s.storeSample v).advanceWrite s.sampleNow).Inv :=
  ⟨h.params, storeSample_memOk h.mem v, h.rem, lowBits_lt _ _, h.result, h.dstate, h.partialBits, h.flight⟩

theorem inv_powerOn {s : State} (hp : s.params.Valid) : s.powerOn.Inv := by
  obtain ⟨hresult, hdstate, hpartial⟩ := decoderOk_of_cleared (s := s.powerOn) rfl rfl
  exact ⟨hp, ⟨List.Pairwise.nil, by simp⟩, Nat.zero_le _, lowBits_lt _ _, hresult, hdstate, hpartial,
    fun hop => absurd rfl hop⟩

/-- Every turn keeps the invariant. -/
theorem State.Inv.turn {s t : State} (h : s.Inv) (ht : Turn s t) : t.Inv := by
  cases ht with
  | stay e => exact h.withEnv e
  | capture e => exact (h.withEnv e).capture _
  | take e c => exact (h.withEnv e).take c
  | setErrBusy e => exact (h.withEnv e).setFlags _ _ _ _
  | setErrCmd e => exact (h.withEnv e).setFlags _ _ _ _
  | writeCtrl e => exact (h.withEnv e).setFlags _ _ _ _
  | clearFlags e => exact (h.withEnv e).setFlags _ _ _ _
  | finish e => exact (h.withEnv e).finish
  | start =>
    exact ⟨h.params, h.mem, h.rem, lowBits_lt _ _, h.result, h.dstate, h.partialBits, fun hop => absurd rfl hop⟩
  | stop => exact ⟨h.params, h.mem, h.rem, h.last, h.result, h.dstate, h.partialBits, fun hop => absurd rfl hop⟩
  | rbReset e => exact inv_finish_rewindRing (h.withEnv e).finish
  | sdReset e => exact inv_finish_clearDecoder (h.withEnv e).finish
  | reset e => exact inv_finish_clearDecoder (inv_finish_rewindRing (h.withEnv e).finish)
  | snap e hop => exact (h.withEnv e).snap (by simpa using hop)
  | read e _ _ hj => exact (h.withEnv e).readSlot (by simpa using hj)
  | drain e => exact inv_finish_drainCommit (h.withEnv e).finish
  | poll e => exact inv_finish_decodeOnce (inv_finish_drainCommit (h.withEnv e).finish)
  | rst => exact inv_powerOn h.params

/-- Settles O46: a step is a turn, and a turn keeps the invariant. -/
theorem stepKeepsInv : Obligations.StepKeepsInv := fun _ _ hinv hstep => hinv.turn (turn_of_step hstep)

/-- The reset state of legal parameters has the invariant. -/
theorem inv_resetWith {p : Params} (hp : p.Valid) : (State.resetWith p).Inv := by
  obtain ⟨hresult, hdstate, hpartial⟩ := decoderOk_of_cleared (s := State.resetWith p) rfl rfl
  exact ⟨hp, ⟨List.Pairwise.nil, by simp [State.resetWith]⟩, Nat.zero_le _, Nat.two_pow_pos _, hresult, hdstate,
    hpartial, fun hop => absurd rfl hop⟩

/-- Settles O45: the standard parameters are legal ones. -/
theorem invHoldsAtReset : Obligations.InvHoldsAtReset :=
  ⟨inv_resetWith (by decide), fun _ => inv_resetWith⟩

/-- Settles O44: State.reset is State.resetWith of the standard parameters, whose fields are written out. -/
theorem resetHoldsTheTabledValues : Obligations.ResetHoldsTheTabledValues := by
  intro s hs
  obtain ⟨p, rfl⟩ : ∃ p, s = State.resetWith p := hs.elim (fun h => ⟨Params.standard, h⟩) id
  simp [State.resetWith]

end Sys2Proof.Machine
end

section
/-! PROOFS of 10_state.md, who writes what: each rule on a piece of state, read off the turns that change it. -/

namespace Sys2Proof.Machine

/-- The commit of POLL outside the decoder's fields (43_streaming.md R183). -/
@[simp] theorem commitPoll_fields (s : State) :
    (commitPoll s).params = s.params ∧ (commitPoll s).mem = s.mem ∧ (commitPoll s).era = s.era ∧
    (commitPoll s).w = s.w ∧ (commitPoll s).r = s.w0 ∧ (commitPoll s).last = s.last ∧
    (commitPoll s).armed = s.armed ∧ (commitPoll s).op = none ∧ (commitPoll s).errBusy = s.errBusy ∧
    (commitPoll s).errCmd = s.errCmd ∧
    (commitPoll s).remOvf = (s.remOvf || overflows s.params.remCap s.rem s.out) := by
  simp [commitPoll]

/-- VALUE changes at the commit of POLL only with RESULT = DATA (10_state.md R33). -/
theorem commitPoll_value (s : State) : (commitPoll s).value = s.value ∨ (commitPoll s).result = resultData := by
  simp only [commitPoll, State.decodeOnce, State.finish_fields]
  split
  · exact .inl rfl
  · exact record_value s.drainCommit _

/-- A slot is read from the bytes listed and the era. -/
theorem slot_congr {s t : State} (hmem : t.mem = s.mem) (hera : t.era = s.era) (i : Nat) : t.slot i = s.slot i := by
  rw [State.slot, State.slot, hmem, hera]

/-- The environment holds no slot. -/
@[simp] theorem slot_withEnv (s : State) (e : Env) (i : Nat) : (s.withEnv e).slot i = s.slot i := rfl

/-- Settles O55: no turn touches the parameters, RST included. -/
theorem parametersAreConstant : Obligations.ParametersAreConstant := by
  intro s t h
  cases turn_of_step h <;> simp

/-- Settles O48: of the turns, CAPTURE, RB_RESET, RESET and RST move w; these but CAPTURE, and the drains' commits, r. -/
theorem whoMovesTheCursors : Obligations.WhoMovesTheCursors := by
  intro s t h
  cases turn_of_step h with
  | capture e hi harmed => exact ⟨fun _ => .inl ⟨hi, harmed, by simp⟩, by simp⟩
  | rbReset e hop => exact ⟨fun _ => .inr ⟨by simp, .inl hop⟩, fun _ => .inr ⟨by simp, .inl hop⟩⟩
  | reset e hop => exact ⟨fun _ => .inr ⟨by simp, .inr (.inl hop)⟩, fun _ => .inr ⟨by simp, .inr (.inl hop)⟩⟩
  | rst e hi => exact ⟨fun _ => .inr ⟨by simp, .inr (.inr hi)⟩, fun _ => .inr ⟨by simp, .inr (.inr hi)⟩⟩
  | drain e hop => exact ⟨by simp, fun _ => .inl ⟨by simp, .inl hop, by simp⟩⟩
  | poll e hop => exact ⟨by simp, fun _ => .inl ⟨by simp, .inr hop, by simp⟩⟩
  | _ => simp

/-- Settles O49: of the turns only CAPTURE and RST touch the slot store, and CAPTURE stores to slot[w mod N] alone. -/
theorem onlyCaptureWritesASlot : Obligations.OnlyCaptureWritesASlot := by
  intro s t i h hne
  cases turn_of_step h with
  | rst e hi => exact .inl hi
  | capture e hi harmed =>
    refine .inr ⟨hi, harmed, by_contra fun hidx => hne ?_⟩
    rw [slot_advanceWrite, slot_storeSample_other (s.withEnv e) _ hidx, slot_withEnv]
  | _ => exact absurd (slot_congr (by simp) (by simp) i) hne

/-- Settles O50: of the turns only the commit of POLL and RST touch VALUE. -/
theorem onlyDataChangesValue : Obligations.OnlyDataChangesValue := by
  intro s t h hne
  cases turn_of_step h with
  | rst e hi => exact .inl hi
  | poll e hop => exact .inr ⟨hop, by simp, (commitPoll_value (s.withEnv e)).resolve_left hne⟩
  | _ => simp at hne

/-- The sticky flags of 10_state.md R36: RST clears them, a write of v to STATUS clears those with their bit in v, and every
other turn keeps those that are set. -/
theorem Turn.flags {s t : State} (h : Turn s t) :
    (∃ rest, s.inputs = .rst :: rest) ∨
    (∃ v rest, s.inputs = .hostWrite 0x00008 4 v :: rest ∧ t.errBusy = (s.errBusy && !v.getLsbD 4) ∧
      t.errCmd = (s.errCmd && !v.getLsbD 5) ∧ t.remOvf = (s.remOvf && !v.getLsbD 6)) ∨
    ((s.errBusy = true → t.errBusy = true) ∧ (s.errCmd = true → t.errCmd = true) ∧
      (s.remOvf = true → t.remOvf = true)) := by
  cases h with
  | rst e hi => exact .inl hi
  | clearFlags e v hi =>
    obtain ⟨rest, hi⟩ := hi
    exact .inr (.inl ⟨v, rest, hi, by simp⟩)
  | drain => exact .inr (.inr (by simp +contextual))
  | poll => exact .inr (.inr (by simp +contextual))
  | _ => exact .inr (.inr (by simp))

/-- Settles O52: a flag that was set and is clear fits only the first two cases of Turn.flags. -/
theorem stickyFlagsStay : Obligations.StickyFlagsStay := by
  intro s t h b hb
  rcases (turn_of_step h).flags with hi | ⟨v, rest, hi, hbusy, hcmd, hovf⟩ | ⟨hbusy, hcmd, hovf⟩
  · exact .inl hi
  · refine .inr ⟨v, rest, hi, ?_⟩
    rcases hb with ⟨rfl, hs, ht⟩ | ⟨rfl, hs, ht⟩ | ⟨rfl, hs, ht⟩
    · simpa [hs, ht] using hbusy
    · simpa [hs, ht] using hcmd
    · simpa [hs, ht] using hovf
  · rcases hb with ⟨-, hs, ht⟩ | ⟨-, hs, ht⟩ | ⟨-, hs, ht⟩
    · simp [hbusy hs] at ht
    · simp [hcmd hs] at ht
    · simp [hovf hs] at ht

/-- Settles O53: of the turns, CAPTURE, START and RST write LAST; START, STOP and RST write ARMED. -/
theorem whoWritesLastAndArmed : Obligations.WhoWritesLastAndArmed := by
  intro s t h
  cases turn_of_step h with
  | rst e hi => exact ⟨fun _ => .inl hi, fun _ => .inl hi⟩
  | capture e hi harmed => exact ⟨fun _ => .inr (.inl ⟨hi, harmed⟩), by simp⟩
  | start e hop harmed =>
    exact ⟨fun _ => .inr (.inr ⟨hop, by simp, harmed⟩), fun _ => .inr (.inl ⟨hop, by simp, by simp⟩)⟩
  | stop e hop => exact ⟨by simp, fun _ => .inr (.inr ⟨hop, by simp, by simp⟩)⟩
  | _ => simp

/-- Settles O54: the turns that touch REM, DSTATE, RESULT, VALUE or PARTIAL leave no command in flight. -/
theorem resultsAppearOnlyAtTheCommit : Obligations.ResultsAppearOnlyAtTheCommit := by
  intro s t h hop
  cases turn_of_step h with
  | sdReset => simp at hop
  | reset => simp at hop
  | drain => simp at hop
  | poll => simp at hop
  | rst => simp at hop
  | _ => simp [SameDecoder]

end Sys2Proof.Machine
end

section
/-! PROOFS of 10_state.md, the steps one by one: what step is with a given input next, and the host's writes. -/

namespace Sys2Proof.Machine

-- The step that comes next (log entry 1).

theorem step_of_cmdWrite {s : State} {v : Word} {rest : List Input} (h : s.inputs = .hostWrite cmdOffset 4 v :: rest) :
    step s = exec (decodeWord v) { s with inputs := rest, agent := .host } := by
  simp [step, fetch, h, takeInput, hostWriteTurn, State.enter]

theorem step_of_edge {s : State} {now : Word} {rest : List Input} (h : s.inputs = .edge now :: rest) :
    step s = exec .capture { s with inputs := rest, now := now, agent := .cap } := by
  simp [step, fetch, h, takeInput, State.enter, State.setNow]

theorem step_of_engine {s : State} {now : Word} {c : Command} {rest : List Input}
    (h : s.inputs = .engine now :: rest) (hop : s.op = some c) :
    step s = exec c.instr { s with inputs := rest, now := now, agent := .eng } := by
  simp [step, fetch, h, takeInput, engineTurn, State.enter, State.setNow, hop]

theorem step_of_engine_idle {s : State} {now : Word} {rest : List Input} (h : s.inputs = .engine now :: rest)
    (hop : s.op = none) : step s = .next { s with inputs := rest, now := now } := by
  simp [step, fetch, h, takeInput, engineTurn, State.setNow, hop]

theorem step_of_quiet {s : State} {c : Command} (h : s.inputs = []) (hop : s.op = some c) :
    step s = exec c.instr { s with now := Config.freeNow s.draws, draws := s.draws + 1, agent := .eng } := by
  simp [step, fetch, h, engineTurn, State.enter, State.drawNow, hop]

theorem step_of_quiet_idle {s : State} (h : s.inputs = []) (hop : s.op = none) : step s = .next s := by
  simp [step, fetch, h, hop]

/-- The lanes of a word decode to its instruction, and no byte is left. -/
theorem decode_bytesOfWord (v : Word) : decode (bytesOfWord v) = .ok (decodeWord v, []) := by
  simp [decode, bytesOfWord]

/-- The decoder's answer for a table row is what its word decodes to. -/
theorem decodeWord_tableWord {nbits w : Nat} {i : Instr} (h : decodeTableWord nbits w = some i) :
    decodeWord (tableWord nbits w) = i := by
  unfold decodeTableWord at h
  split at h
  · simpa [decode_bytesOfWord, tableWord] using h
  · cases h

/-- Settles O4: one lemma for each kind of input, and a fetched word is the host's write of it to CMD. -/
theorem stepRunsTheNextInstruction : Obligations.StepRunsTheNextInstruction := by
  refine ⟨fun _ _ _ h => step_of_cmdWrite h, fun _ _ _ h => step_of_edge h, fun _ _ _ _ h hop => step_of_engine h hop,
    fun _ _ _ h hop => step_of_engine_idle h hop, fun _ _ h hop => step_of_quiet h hop,
    fun _ h hop => step_of_quiet_idle h hop, fun s nbits w i h => ?_⟩
  rw [← decodeWord_tableWord h]
  exact step_of_cmdWrite (s := s.withFetchWord nbits w) (v := tableWord nbits w) rfl

-- The host's writes.

/-- 10_state.md R41: what the host's write of v to CMD makes of s. -/
def State.afterCmdWrite (s : State) (v : Word) : State :=
  match commandOfWord v with
  | some c => s.accept c
  | none => s.rejectWord

/-- The host's write of a word to CMD takes a command, sets ERR_CMD or sets ERR_BUSY. -/
theorem afterCmdWrite_cases (s : State) (v : Word) :
    (∃ c, commandOfWord v = some c ∧ s.op = none ∧ s.afterCmdWrite v = s.take c) ∨
    (commandOfWord v = none ∧ s.op = none ∧ s.afterCmdWrite v = s.setErrCmd) ∨
    (s.op ≠ none ∧ s.afterCmdWrite v = s.setErrBusy) := by
  unfold State.afterCmdWrite
  cases hv : commandOfWord v with
  | some c =>
    rcases accept_cases s c with ⟨hop, heq⟩ | ⟨hop, heq⟩
    · exact .inl ⟨c, rfl, hop, heq⟩
    · exact .inr (.inr ⟨hop, heq⟩)
  | none =>
    rcases rejectWord_cases s with ⟨hop, heq⟩ | ⟨hop, heq⟩
    · exact .inr (.inl ⟨rfl, hop, heq⟩)
    · exact .inr (.inr ⟨hop, heq⟩)

theorem exec_decodeWord_host (v : Word) {s : State} (h : s.agent = .host) :
    exec (decodeWord v) s = .next (s.afterCmdWrite v) := exec_host v h

/-- Settles O5: CMD reads 0, and a write of it has the three outcomes of R41. -/
theorem cmdWriteAcceptsOrFlags : Obligations.CmdWriteAcceptsOrFlags := by
  intro s
  refine ⟨readReturns_of_readReg (by decide) (by simp [State.readReg, cmdOffset]), fun v rest h => ?_⟩
  rw [step_of_cmdWrite h, exec_decodeWord_host v rfl]
  rcases afterCmdWrite_cases { s with inputs := rest, agent := .host } v with
    ⟨c, hv, hop, heq⟩ | ⟨hv, hop, heq⟩ | ⟨hop, heq⟩ <;> rw [heq]
  · have hop' : s.op = none := hop
    simp [hop', hv, State.take]
  · have hop' : s.op = none := hop
    simp [hop', hv, State.setErrCmd]
  · have hop' : s.op ≠ none := hop
    simp [hop', State.setErrBusy]

/-- Settles O32: the fields of take, setErrCmd and setErrBusy. -/
theorem cmdWriteFrame : Obligations.CmdWriteFrame := by
  intro v s t ha h
  rw [exec_decodeWord_host v ha] at h
  obtain rfl := Host.Outcome.next.inj h
  rcases afterCmdWrite_cases s v with ⟨c, -, -, heq⟩ | ⟨-, -, heq⟩ | ⟨-, heq⟩ <;> rw [heq] <;>
    simp [SameMemory, SameCapture, SameDecoder, SameModel]

/-- 20_memory.md R74: a 32-bit write at an aligned offset other than CMD is the register's write. -/
theorem writeLeaves_of_writeReg (s : State) {off : BitVec 18} (v : Word) (hoff : off.toNat % 4 = 0)
    (hcmd : off ≠ cmdOffset) : WriteLeaves s off v (s.writeReg off.toNat v) := by
  intro rest h
  have hwrite : ∀ n, State.writeReg { s with inputs := rest, agent := .host } n v =
      { s.writeReg n v with inputs := rest, agent := .host } := by
    intro n
    unfold State.writeReg
    split
    · rfl
    · split <;> rfl
  simpa [step, fetch, h, takeInput, hostWriteTurn, hcmd, hostWriteStep, accessRefusal, hoff, State.enter] using
    hwrite off.toNat

/-- Bit 0 of a word is its parity. -/
theorem writeCtrl_eq (s : State) (v : Word) : s.writeCtrl v = { s with resync := decide (v.toNat % 2 = 1) } := by
  simp [State.writeCtrl, BitVec.getLsbD, Nat.testBit_zero]

/-- Clearing a flag where v has its bit. -/
theorem clearFlags_eq (s : State) (v : Word) : s.clearFlags v = { s with
    errBusy := if v.getLsbD 4 then false else s.errBusy
    errCmd := if v.getLsbD 5 then false else s.errCmd
    remOvf := if v.getLsbD 6 then false else s.remOvf } := by
  have hflag : ∀ b c : Bool, (b && !c) = if c then false else b := by decide
  simp only [State.clearFlags, hflag]

/-- Settles O40: the two registers that take a write. -/
theorem ctrlAndStatusWrites : Obligations.CtrlAndStatusWrites := by
  intro s v
  rw [← writeCtrl_eq, ← clearFlags_eq]
  exact ⟨writeLeaves_of_writeReg s v (off := 0x00000) (by decide) (by decide),
    writeLeaves_of_writeReg s v (off := 0x00008) (by decide) (by decide)⟩

end Sys2Proof.Machine
end

section
/-! PROOFS of 10_state.md, the register map: what the registers and the two windows read as. -/

namespace Sys2Proof.Machine

-- The register words.

theorem bitNat_le (b : Bool) : bitNat b ≤ 1 := by cases b <;> decide

theorem flagBit_toNat (b : Bool) : (flagBit b).toNat = bitNat b := by cases b <;> rfl

/-- The CTRL word (10_state.md R40). -/
theorem ctrlWord_eq (s : State) : s.ctrlWord = BitVec.ofNat 32 (bitNat s.resync) := by
  have hbit := bitNat_le s.resync
  apply BitVec.eq_of_toNat_eq
  simp only [State.ctrlWord, toNat_append_eq_add, flagBit_toNat, BitVec.toNat_ofNat]
  omega

/-- The STATUS word (10_state.md R42), the code of DSTATE in bits 3:2. -/
theorem statusWord_eq (s : State) : s.statusWord = BitVec.ofNat 32 (bitNat s.armed + 2 * bitNat s.op.isSome +
    4 * (dstateCode s.dstate).toNat + 16 * bitNat s.errBusy + 32 * bitNat s.errCmd + 64 * bitNat s.remOvf) := by
  have harmed := bitNat_le s.armed
  have hop := bitNat_le s.op.isSome
  have hcode := (dstateCode s.dstate).isLt
  have hbusy := bitNat_le s.errBusy
  have hcmd := bitNat_le s.errCmd
  have hovf := bitNat_le s.remOvf
  apply BitVec.eq_of_toNat_eq
  simp only [State.statusWord, State.busy, toNat_append_eq_add, flagBit_toNat, BitVec.toNat_ofNat]
  omega

/-- The PARAM word of legal parameters (10_state.md R49): each fits its field. -/
theorem paramWord_eq {p : Params} (h : p.Valid) :
    paramWord p = BitVec.ofNat 32 (p.log2N + 32 * p.tw + 65536 * p.remCap) := by
  obtain ⟨-, hlog, -, hcap, -, htw⟩ := h
  apply BitVec.eq_of_toNat_eq
  simp only [paramWord, toNat_append_eq_add, BitVec.toNat_ofNat]
  omega

/-- The RB_COUNT word of legal parameters (10_state.md R27, R46). -/
theorem countWord_rbCount {p : Params} (h : p.Valid) (w r : Word) :
    countWord (rbCount p.n w r) = BitVec.ofNat 32 (min (w - r).toNat p.n) := by
  have hle := rbCount_le p.n w r
  have hn := Params.n_le h
  exact countWord_eq (by omega)

/-- The REM_LEN word (10_state.md R47): REM_CAP keeps it within its field. -/
theorem countWord_remLen {p : Params} (h : p.Valid) {rem : TimeSeq} (hrem : rem.length ≤ p.remCap) :
    countWord rem.length = BitVec.ofNat 32 rem.length := by
  obtain ⟨-, -, -, hcap, -, -⟩ := h
  exact countWord_eq (by omega)

/-- Settles O37: each offset's word in readReg, and that word's number. -/
theorem registerReads : Obligations.RegisterReads := by
  intro s hp hrem
  have hread : ∀ (off : BitVec 18) {x : Word}, off.toNat % 4 = 0 → s.readReg off.toNat = x → ReadReturns s off x :=
    fun _ _ => readReturns_of_readReg
  refine ⟨hread 0x00000 (by decide) (ctrlWord_eq s), hread 0x00008 (by decide) ((statusWord_eq s).trans ?_),
    hread 0x0000C (by decide) rfl, hread 0x00010 (by decide) rfl, hread 0x00014 (by decide) rfl,
    hread 0x00018 (by decide) rfl, hread 0x0001C (by decide) rfl, hread 0x00020 (by decide) (countWord_rbCount hp _ _),
    hread 0x00024 (by decide) (countWord_remLen hp hrem), hread 0x00028 (by decide) rfl,
    hread 0x0002C (by decide) (paramWord_eq hp)⟩
  cases s.dstate <;> rfl

-- The windows.

/-- The RB_SLOT window stands at 0x10000, one slot for each word (10_state.md R50). -/
theorem readReg_slotWindow (s : State) {i : Nat} (h : i < 16384) :
    s.readReg (0x10000 + 4 * i) = s.slotWindow i := by
  have hlow : ∀ k, k < 0x10000 → 0x10000 + 4 * i ≠ k := by omega
  have hidx : (0x10000 + 4 * i - 0x10000) / 4 = i := by omega
  have hwin : 0x10000 ≤ 0x10000 + 4 * i ∧ 0x10000 + 4 * i < 0x20000 := by omega
  simp only [State.readReg, hlow, Nat.reduceLT, if_false, if_pos hwin, hidx]

/-- The REM window stands at 0x20000, one sample for each word (10_state.md R51). -/
theorem readReg_remWindow (s : State) {i : Nat} (h : i < 16384) : s.readReg (0x20000 + 4 * i) = s.remWindow i := by
  have hlow : ∀ k, k < 0x10000 → 0x20000 + 4 * i ≠ k := by omega
  have hidx : (0x20000 + 4 * i - 0x20000) / 4 = i := by omega
  have hslot : ¬ (0x10000 ≤ 0x20000 + 4 * i ∧ 0x20000 + 4 * i < 0x20000) := by omega
  have hwin : 0x20000 ≤ 0x20000 + 4 * i ∧ 0x20000 + 4 * i < 0x30000 := by omega
  simp only [State.readReg, hlow, Nat.reduceLT, if_false, if_neg hslot, if_pos hwin, hidx]

/-- A read of the word at index i of a window that starts at base. -/
theorem readReturns_window {s : State} {base i : Nat} {x : Word} (hbase : base % 4 = 0 ∧ base ≤ 0x20000)
    (h : i < 16384) (hx : s.readReg (base + 4 * i) = x) : ReadReturns s (BitVec.ofNat 18 (base + 4 * i)) x := by
  have hoff : (BitVec.ofNat 18 (base + 4 * i)).toNat = base + 4 * i := by rw [BitVec.toNat_ofNat]; omega
  exact readReturns_of_readReg (by rw [hoff]; omega) (by rw [hoff, hx])

/-- Settles O38: a window reads its element below its length, and 0 above. -/
theorem windowReads : Obligations.WindowReads := by
  intro s i h
  have hslot : ReadReturns s (BitVec.ofNat 18 (0x10000 + 4 * i)) (s.slotWindow i) :=
    readReturns_window (by decide) h (readReg_slotWindow s h)
  have hrem : ReadReturns s (BitVec.ofNat 18 (0x20000 + 4 * i)) (s.remWindow i) :=
    readReturns_window (by decide) h (readReg_remWindow s h)
  refine ⟨fun hi => ?_, fun hi => ?_, fun hi => ?_, fun hi => ?_⟩
  · rwa [State.slotWindow, if_pos hi] at hslot
  · rwa [State.slotWindow, if_neg (by omega)] at hslot
  · rwa [State.remWindow, List.getD_eq_getElem _ _ hi] at hrem
  · rwa [State.remWindow, List.getD_eq_default _ _ hi] at hrem

end Sys2Proof.Machine
end

section
/-! PROOFS of 10_state.md R27, the unread samples: what a capture makes of them. -/

namespace Sys2Proof.Machine

-- The newest samples of the ring.

/-- The sample k places behind the write cursor: k = 1 is the newest one. -/
def State.behind (s : State) (k : Nat) : Sample := s.slot ((s.w - BitVec.ofNat 32 k).toNat % s.params.n)

/-- The c newest samples, oldest first. -/
def State.newest (s : State) (c : Nat) : TimeSeq := (List.range c).map fun k => s.behind (c - k)

/-- The unread samples are the RB_COUNT newest ones (10_state.md R27). -/
theorem unread_eq_newest (s : State) : s.unread = s.newest (rbCount s.params.n s.w s.r) := by
  simp only [State.unread, State.newest, State.behind]
  refine List.map_congr_left fun k hk => ?_
  have hk : k < rbCount s.params.n s.w s.r := List.mem_range.mp hk
  rw [show BitVec.ofNat 32 (rbCount s.params.n s.w s.r) =
      BitVec.ofNat 32 (rbCount s.params.n s.w s.r - k) + BitVec.ofNat 32 k by
    rw [← BitVec.ofNat_add, Nat.sub_add_cancel hk.le], sub_add_eq_sub_sub, sub_add_cancel]

/-- The c + 1 newest samples are one older sample and the c newest. -/
theorem newest_succ (s : State) (c : Nat) : s.newest (c + 1) = s.behind (c + 1) :: s.newest c := by
  simp [State.newest, List.range_succ_eq_map]

/-- The slot k places behind w, for 0 < k < N, is not the one at w. -/
theorem slot_behind_ne_slotIndex {s : State} (h : s.params.Valid) {k : Nat} (hpos : 0 < k) (hk : k < s.params.n) :
    (s.w - BitVec.ofNat 32 k).toNat % s.params.n ≠ s.slotIndex := by
  intro heq
  have hw : s.slotIndex = ((s.w - BitVec.ofNat 32 k).toNat + k) % s.params.n := by
    rw [← cursor_add_mod h, BitVec.sub_add_cancel, State.slotIndex]
  have hmod : (s.w - BitVec.ofNat 32 k).toNat + k ≡ (s.w - BitVec.ofNat 32 k).toNat + 0 [MOD s.params.n] :=
    (heq.trans hw).symm
  have hdvd : s.params.n ∣ k := Nat.modEq_zero_iff_dvd.mp (Nat.ModEq.add_left_cancel' _ hmod)
  exact absurd (Nat.le_of_dvd hpos hdvd) (by omega)

/-- The sample stored in slot[w mod N] is the newest one once w has advanced. -/
theorem behind_one_capture (s : State) (v : Sample) (t : Word) :
    ((s.storeSample v).advanceWrite t).behind 1 = v := by
  have hw : s.w + 1 - BitVec.ofNat 32 1 = s.w := by simp
  have hslot : (s.storeSample v).slot (s.w.toNat % s.params.n) = v := slot_storeSample_same s v
  simpa only [State.behind, slot_advanceWrite, State.advanceWrite_fields, State.storeSample_fields, hw] using hslot

/-- The sample that was k places behind is k + 1 places behind after a capture, if k < N. -/
theorem behind_succ_capture {s : State} (h : s.params.Valid) (v : Sample) (t : Word) {k : Nat} (hpos : 0 < k)
    (hk : k < s.params.n) : ((s.storeSample v).advanceWrite t).behind (k + 1) = s.behind k := by
  have hw : s.w + 1 - BitVec.ofNat 32 (k + 1) = s.w - BitVec.ofNat 32 k := by
    rw [BitVec.ofNat_add]
    exact add_sub_add_right_eq_sub _ _ _
  simp only [State.behind, slot_advanceWrite, State.advanceWrite_fields, State.storeSample_fields, hw]
  exact slot_storeSample_other s v (slot_behind_ne_slotIndex h hpos hk)

/-- A capture puts its sample after the c newest ones, if c < N (40_ring_buffer.md R110). -/
theorem newest_succ_capture {s : State} (h : s.params.Valid) (v : Sample) (t : Word) {c : Nat} (hc : c < s.params.n) :
    ((s.storeSample v).advanceWrite t).newest (c + 1) = s.newest c ++ [v] := by
  rw [State.newest, List.range_succ, List.map_append, List.map_singleton, Nat.add_sub_cancel_left,
    behind_one_capture]
  congr 1
  refine List.map_congr_left fun k hk => ?_
  have hk : k < c := List.mem_range.mp hk
  rw [Nat.sub_add_comm hk.le, behind_succ_capture h v t (by omega) (by omega)]

/-- Nothing is unread where the cursors meet. -/
theorem rbCount_self (n : Nat) (w : Word) : rbCount n w w = 0 := by simp [rbCount]

/-- RB_COUNT after w has advanced by 1, unless w comes round to r. -/
theorem rbCount_succ {n : Nat} {w r : Word} (hne : w + 1 ≠ r) :
    rbCount n (w + 1) r = min ((w - r).toNat + 1) n := by
  have hdist : (w + 1 - r).toNat = (w - r).toNat + 1 := by
    have hlt : (w + 1 - r).toNat ≠ 0 := fun h0 => hne (sub_eq_zero.mp (BitVec.eq_of_toNat_eq h0))
    have hone : (1 : Word).toNat = 1 := rfl
    rw [← sub_add_eq_add_sub, BitVec.toNat_add, hone] at hlt ⊢
    omega
  rw [rbCount, hdist]

/-- Settles O21: with fewer than N unread the count grows by the new sample; with N unread it stays, and the oldest of the
N samples is no longer among the newest. -/
theorem captureAppendsToTheUnread : Obligations.CaptureAppendsToTheUnread := by
  intro s t hp harmed h
  rw [exec_capture, if_pos harmed] at h
  obtain rfl := Host.Outcome.next.inj h
  have hcount := unread_length s
  rw [unread_eq_newest]
  simp only [State.advanceWrite_fields, State.storeSample_fields]
  split
  · next hround => rw [hround, rbCount_self]; rfl
  · next hround =>
    rw [rbCount_succ hround]
    split
    · next hlt =>
      rw [hcount, rbCount] at hlt
      have hold : rbCount s.params.n s.w s.r = (s.w - s.r).toNat := by rw [rbCount]; omega
      rw [Nat.min_eq_left (by omega), newest_succ_capture hp _ _ (by omega), unread_eq_newest, hold]
    · next hfull =>
      rw [hcount, rbCount] at hfull
      obtain ⟨m, hm⟩ : ∃ m, s.params.n = m + 1 := Nat.exists_eq_add_one.mpr (Params.n_pos _)
      have hold : rbCount s.params.n s.w s.r = m + 1 := by rw [rbCount]; omega
      rw [Nat.min_eq_right (by omega), hm, newest_succ_capture hp _ _ (by omega), unread_eq_newest, hold, newest_succ,
        List.drop_one, List.tail_cons]

end Sys2Proof.Machine
end

section
/-! PROOFS of 10_state.md R27 and 40_ring_buffer.md R115 and R116, the quiet drain: what SNAP, the READ steps and the commit
make of a machine with no input listed (log entry 1). -/

namespace Sys2Proof.Machine

/-- A run of k + m steps is a run of k and a run of m. -/
theorem run_add {k : Nat} {s u : State} (h : core.run k s = .next u) (m : Nat) :
    core.run (k + m) s = core.run m u := by
  induction k generalizing s with
  | zero =>
    obtain rfl : s = u := Host.Outcome.next.inj h
    rw [Nat.zero_add]
  | succ k ih =>
    rw [Nat.succ_add]
    simp only [Host.Core.run] at h ⊢
    split at h
    · exact ih h
    · cases h
    · cases h

/-- One more step after a run. -/
theorem run_succ {k : Nat} {s u t : State} (h : core.run k s = .next u) (hstep : step u = .next t) :
    core.run (k + 1) s = .next t := by
  rw [run_add h 1, run_step hstep]
  rfl

/-- With no input listed, a step is the engine's turn in an environment without inputs. -/
theorem exists_step_of_quiet {s : State} {c : Command} (hi : s.inputs = []) (hop : s.op = some c) :
    ∃ e : Env, e.inputs = [] ∧ e.agent = .eng ∧ step s = exec c.instr (s.withEnv e) :=
  ⟨⟨Config.freeNow s.draws, s.inputs, .eng, s.rdata, s.draws + 1⟩, hi, rfl, step_of_quiet hi hop⟩

/-- SNAP is the first engine step of DRAIN and POLL. -/
theorem exec_snap {s : State} {c : Command} (hc : c = .drain ∨ c = .poll) (ha : s.agent = .eng) (hop : s.op = some c)
    (hph : s.ph = .accepted) : exec c.instr s = .next s.snap := by
  rcases hc with rfl | rfl
  · exact (commandStep_eng ha hop).trans (drainSteps_accepted hph)
  · exact (commandStep_eng ha hop).trans (drainSteps_accepted hph)

/-- READ is their next step while J < ND. -/
theorem exec_read {s : State} {c : Command} (hc : c = .drain ∨ c = .poll) (ha : s.agent = .eng) (hop : s.op = some c)
    (hph : s.ph = .snapped) (hj : s.j < s.nd) : exec c.instr s = .next s.readSlot := by
  rcases hc with rfl | rfl
  · exact (commandStep_eng ha hop).trans (drainSteps_read hph hj)
  · exact (commandStep_eng ha hop).trans (drainSteps_read hph hj)

/-- The commit of DRAIN is its step at J = ND. -/
theorem exec_drain_commit {s : State} (ha : s.agent = .eng) (hop : s.op = some .drain) (hph : s.ph = .snapped)
    (hj : s.j = s.nd) : exec .drain s = .next s.drainCommit.finish :=
  (commandStep_eng ha hop).trans (drainSteps_commit hph hj)

-- The READ steps.

/-- The samples the next k READ steps return. -/
def State.reads (s : State) (k : Nat) : TimeSeq :=
  (List.range k).map fun i => s.slot ((s.s0.toNat + s.j + i) % s.params.n)

/-- s after k READ steps. -/
def State.afterReads (s : State) (k : Nat) : State := { s with out := s.out ++ s.reads k, j := s.j + k }

/-- The first of k + 1 READ steps returns the next sample. -/
theorem reads_succ (s : State) (k : Nat) : s.reads (k + 1) = s.nextSample :: s.readSlot.reads k := by
  have hslot : ∀ i, s.readSlot.slot i = s.slot i := slot_congr (by simp) (by simp)
  have hidx : ∀ i, s.s0.toNat + (s.j + 1) + i = s.s0.toNat + s.j + (i + 1) := by omega
  simp [State.reads, State.nextSample, List.range_succ_eq_map, hslot, hidx]

/-- k READ steps after one are k + 1, whatever environment the one was taken in. -/
theorem afterReads_readSlot (s : State) (e e' : Env) (k : Nat) :
    ((s.withEnv e).readSlot.afterReads k).withEnv e' = (s.afterReads (k + 1)).withEnv e' := by
  have hout : (s.withEnv e).readSlot.out ++ (s.withEnv e).readSlot.reads k = s.out ++ s.reads (k + 1) := by
    rw [reads_succ]
    exact List.append_assoc ..
  have hj : (s.withEnv e).readSlot.j + k = s.j + (k + 1) := Nat.succ_add_eq_add_succ ..
  rw [State.afterReads, State.afterReads, hout, hj]
  rfl

/-- A snapshot with k samples left to read is followed by k READ steps. -/
theorem run_reads {c : Command} (hc : c = .drain ∨ c = .poll) {k : Nat} {s : State} (hi : s.inputs = [])
    (hop : s.op = some c) (hph : s.ph = .snapped) (hk : s.j + k ≤ s.nd) :
    ∃ e : Env, e.inputs = [] ∧ core.run k s = .next ((s.afterReads k).withEnv e) := by
  induction k generalizing s with
  | zero =>
    refine ⟨⟨s.now, s.inputs, s.agent, s.rdata, s.draws⟩, hi, ?_⟩
    simp [Host.Core.run, State.afterReads, State.reads, State.withEnv]
  | succ k ih =>
    obtain ⟨e, hei, hea, hstep⟩ := exists_step_of_quiet hi hop
    have hread := hstep.trans (exec_read (s := s.withEnv e) hc hea hop hph (show s.j < s.nd by omega))
    obtain ⟨e', hei', hrun⟩ := ih (s := (s.withEnv e).readSlot) hei hop hph (show s.j + 1 + k ≤ s.nd by omega)
    exact ⟨e', hei', by rw [run_step hread, hrun, afterReads_readSlot]⟩

/-- From SNAP on, the READ steps return the unread samples, oldest first. -/
theorem reads_snap {s : State} (h : s.params.Valid) : s.snap.reads (rbCount s.params.n s.w s.r) = s.unread := by
  have hslot : ∀ i, s.snap.slot i = s.slot i := slot_congr (by simp) (by simp)
  simp only [State.reads, State.unread, hslot, State.snap_fields, Nat.add_zero, cursor_add_mod h]

/-- With no input listed, an accepted DRAIN or POLL takes SNAP and one READ for each unread sample. -/
theorem run_snap_reads {s : State} {c : Command} (hc : c = .drain ∨ c = .poll) (hi : s.inputs = [])
    (hop : s.op = some c) (hph : s.ph = .accepted) :
    ∃ e : Env, e.inputs = [] ∧ core.run (rbCount s.params.n s.w s.r + 1) s =
      .next ((s.snap.afterReads (rbCount s.params.n s.w s.r)).withEnv e) := by
  obtain ⟨e, hei, hea, hstep⟩ := exists_step_of_quiet hi hop
  have hsnap := hstep.trans (exec_snap (s := s.withEnv e) hc hea hop hph)
  obtain ⟨e', hei', hrun⟩ := run_reads hc (k := rbCount s.params.n s.w s.r) (s := (s.withEnv e).snap) hei hop rfl
    (Nat.zero_add _).le
  exact ⟨e', hei', by rw [run_step hsnap, hrun]; rfl⟩

/-- Nothing is unread once r has reached w. -/
theorem unread_eq_nil {s : State} (h : s.r = s.w) : s.unread = [] := by
  rw [unread_eq_newest, h, rbCount_self]
  rfl

/-- With no input listed, an accepted DRAIN takes SNAP, one READ for each unread sample and the commit. -/
theorem run_quiet_drain {s : State} (hi : s.inputs = []) (hop : s.op = some .drain) (hph : s.ph = .accepted) :
    ∃ e : Env, core.run (rbCount s.params.n s.w s.r + 2) s =
      .next ((s.snap.afterReads (rbCount s.params.n s.w s.r)).withEnv e).drainCommit.finish := by
  obtain ⟨e, hei, hreads⟩ := run_snap_reads (.inl rfl) hi hop hph
  obtain ⟨e', -, hea, hstep⟩ := exists_step_of_quiet
    (s := (s.snap.afterReads (rbCount s.params.n s.w s.r)).withEnv e) hei hop
  have hcommit := hstep.trans (exec_drain_commit (s := State.withEnv _ e') hea hop rfl (Nat.zero_add _))
  exact ⟨e', run_succ hreads hcommit⟩

/-- Settles O17: the samples read are the unread ones, and the commit appends them and brings r to the snapshot's w. -/
theorem quietDrainReturnsTheUnread : Obligations.QuietDrainReturnsTheUnread := by
  intro s hp hi hop hph
  obtain ⟨e, hrun⟩ := run_quiet_drain hi hop hph
  refine ⟨_, hrun, ?_⟩
  have hunread : s.snap.reads (rbCount s.params.n s.w s.r) = s.unread := reads_snap hp
  simp [State.afterReads, hunread, unread_eq_nil]

end Sys2Proof.Machine
end

section
/-! PROOFS of 20_memory.md: what the host port does at unlisted offsets, what it refuses, and what a read leaves. -/

namespace Sys2Proof.Machine

-- Unlisted offsets.

/-- The map lists registers below 0x30 and the two windows from 0x10000 to 0x2FFFF, and nothing else (20_memory.md R76). -/
theorem readReg_unlisted (s : State) {off : Nat} (h : (0x00030 ≤ off ∧ off < 0x10000) ∨ 0x30000 ≤ off) :
    s.readReg off = 0 := by
  have hreg : ∀ k, k < 0x30 → off ≠ k := by omega
  have hslot : ¬ (0x10000 ≤ off ∧ off < 0x20000) := by omega
  have hrem : ¬ (0x20000 ≤ off ∧ off < 0x30000) := by omega
  simp only [State.readReg, hreg, Nat.reduceLT, if_false, if_neg hslot, if_neg hrem]

/-- Only CTRL and STATUS take a register write (20_memory.md R74). -/
theorem writeReg_ignored (s : State) {off : Nat} (v : Word) (hctrl : off ≠ 0x00000) (hstatus : off ≠ 0x00008) :
    s.writeReg off v = s := by
  rw [State.writeReg, if_neg hctrl, if_neg hstatus]

/-- Settles O39: the map lists nothing there, and a write to a register other than CTRL, CMD and STATUS is ignored. -/
theorem unlistedOffsetsReadZeroAndIgnoreWrites : Obligations.UnlistedOffsetsReadZeroAndIgnoreWrites := by
  intro s off v hoff
  refine ⟨fun h => readReturns_of_readReg hoff (readReg_unlisted s h), fun hctrl hcmd hstatus => ?_⟩
  have hwrite := writeLeaves_of_writeReg s v hoff hcmd
  rwa [writeReg_ignored s v (fun h => hctrl (BitVec.eq_of_toNat_eq h))
    (fun h => hstatus (BitVec.eq_of_toNat_eq h))] at hwrite

-- The host's accesses, and which of them are refused.

theorem step_of_hostRead {s : State} {off : BitVec 18} {width : Nat} {rest : List Input}
    (h : s.inputs = .hostRead off width :: rest) :
    step s = hostReadStep off width { s with inputs := rest, agent := .host } := by
  simp [step, fetch, h, takeInput, State.enter]

theorem step_of_hostWrite {s : State} {off : BitVec 18} {width : Nat} {v : Word} {rest : List Input}
    (h : s.inputs = .hostWrite off width v :: rest) (hcmd : ¬ (off = cmdOffset ∧ width = 4)) :
    step s = hostWriteStep off width v { s with inputs := rest, agent := .host } := by
  simp [step, fetch, h, takeInput, hostWriteTurn, hcmd, State.enter]

theorem accessRefusal_of_width {width : Nat} (off : BitVec 18) (h : width ≠ 4) :
    accessRefusal off width = some .accessWidth := if_pos h

theorem accessRefusal_of_misaligned {off : BitVec 18} (h : off.toNat % 4 ≠ 0) :
    accessRefusal off 4 = some .misaligned := by simp [accessRefusal, h]

/-- A write that is refused is no word for CMD, whose 32-bit access is allowed, so reads and writes are refused alike. -/
theorem step_of_accessRefusal {s : State} {off : BitVec 18} {width : Nat} {v : Word} {rest : List Input}
    {reason : Refusal} (h : s.inputs = .hostRead off width :: rest ∨ s.inputs = .hostWrite off width v :: rest)
    (href : accessRefusal off width = some reason) : step s = .refused reason := by
  rcases h with h | h
  · rw [step_of_hostRead h, hostReadStep, href]
  · have hcmd : ¬ (off = cmdOffset ∧ width = 4) := by
      rintro ⟨rfl, rfl⟩
      have hallowed : accessRefusal cmdOffset 4 = none := by decide
      simp [hallowed] at href
    rw [step_of_hostWrite h hcmd, hostWriteStep, href]

/-- Settles O41: the two reasons for which an access is refused. -/
theorem undefinedAccessesAreRefused : Obligations.UndefinedAccessesAreRefused := by
  intro s off width v rest h
  refine ⟨fun hw => step_of_accessRefusal h (accessRefusal_of_width off hw), ?_⟩
  rintro rfl hoff
  exact step_of_accessRefusal h (accessRefusal_of_misaligned hoff)

-- What a read leaves.

/-- 20_memory.md R74: a read that is not refused hands its word to the host and changes nothing else. -/
theorem hostReadStep_eq_next_iff {s t : State} {off : BitVec 18} {width : Nat} :
    hostReadStep off width s = .next t ↔
      accessRefusal off width = none ∧ t = { s with rdata := some (s.readReg off.toNat) } := by
  unfold hostReadStep
  cases accessRefusal off width <;> simp [eq_comm]

/-- The map shows neither the inputs, nor the agent, nor the word read before. -/
theorem readReg_withEnv (s : State) (e : Env) (off : Nat) : (s.withEnv e).readReg off = s.readReg off := rfl

/-- Settles O42: a read writes rdata alone, which the map does not show, so the same read is again not refused and finds the
same word. -/
theorem readsHaveNoSideEffect : Obligations.ReadsHaveNoSideEffect := by
  intro s t off width rest h hstep
  rw [step_of_hostRead h, hostReadStep_eq_next_iff] at hstep
  obtain ⟨hallowed, rfl⟩ := hstep
  refine ⟨fun _ => rfl, ?_, ?_, ?_, ?_, rfl, rfl, ?_⟩
  · simp [SameCapture]
  · simp [SameDecoder]
  · simp [SameFlags]
  · simp [SameFlight]
  · rintro u rfl
    refine ⟨_, (step_of_hostRead rfl).trans (hostReadStep_eq_next_iff.mpr ⟨hallowed, rfl⟩), ?_⟩
    exact congrArg some (readReg_withEnv s ⟨s.now, rest, .host, _, s.draws⟩ _)

end Sys2Proof.Machine
end

section
/-! PROOFS of 30_encoding.md, the words: which word an instruction has, and what a word decodes to. -/

namespace Sys2Proof.Machine

-- The two kinds of word (30_encoding.md R91, R93).

/-- The table finds a command by its whole word, and no two commands share one (30_encoding.md R97). -/
theorem commandOfWord_eq_some_iff {w : Word} {c : Command} : commandOfWord w = some c ↔ c.word = w := by
  constructor
  · intro h
    exact of_decide_eq_true (List.find?_some (p := fun c => decide (Command.word c = w)) h)
  · rintro rfl
    cases c <;> rfl

theorem decodeWord_word (c : Command) : decodeWord c.word = c.instr := by
  rw [decodeWord, commandOfWord_eq_some_iff.mpr rfl]

/-- From 8 on a word is reserved (30_encoding.md R93). -/
theorem decodeWord_of_le {w : Word} (h : 8 ≤ w.toNat) : decodeWord w = .reserved w :=
  Laws.Roundtrip.reserved w (decide_eq_true h) w rfl

/-- The table of 30_encoding.md R91 fills the words below 8. -/
theorem exists_command_word {w : Word} (h : w.toNat < 8) : ∃ c : Command, c.word = w := by
  have htable : ∀ k < 8, ∃ c ∈ commandTable, c.word = BitVec.ofNat 32 k := by decide
  obtain ⟨c, -, hc⟩ := htable w.toNat h
  exact ⟨c, hc.trans (BitVec.ofNat_toNat ..)⟩

/-- A word is a command's, or it is reserved (30_encoding.md R97). -/
theorem word_cases (w : Word) : (∃ c : Command, c.word = w) ∨ 8 ≤ w.toNat :=
  (Nat.lt_or_ge w.toNat 8).imp_left exists_command_word

/-- Settles O3: the words below 8 are the table's, and every other word is reserved. -/
theorem wordsBelowEightAreTheCommands : Obligations.WordsBelowEightAreTheCommands := by
  intro w
  refine ⟨fun h => ?_, decodeWord_of_le⟩
  obtain ⟨c, rfl⟩ := exists_command_word h
  exact ⟨c, decodeWord_word c, rfl⟩

-- The word of an instruction.

@[simp] theorem encodeWord_instr (c : Command) : encodeWord c.instr = some c.word := by cases c <;> rfl

@[simp] theorem wellFormed_instr (c : Command) : c.instr.wellFormed = true := by cases c <;> rfl

/-- A well-formed instruction that has a word is what the word decodes to. -/
theorem decodeWord_of_encodeWord : ∀ i : Instr, Laws.Roundtrip.Statement i
  | .nop => Laws.Roundtrip.nop
  | .poll => Laws.Roundtrip.poll
  | .drain => Laws.Roundtrip.drain
  | .rbReset => Laws.Roundtrip.rbReset
  | .sdReset => Laws.Roundtrip.sdReset
  | .reset => Laws.Roundtrip.reset
  | .start => Laws.Roundtrip.start
  | .stop => Laws.Roundtrip.stop
  | .capture => Laws.Roundtrip.capture
  | .matchOp m sp => Laws.Roundtrip.matchOp m sp
  | .scan seq sp => Laws.Roundtrip.scan seq sp
  | .decode seq => Laws.Roundtrip.decode seq
  | .reserved w => Laws.Roundtrip.reserved w

/-- A word is the word of what it decodes to. -/
theorem encodeWord_decodeWord (w : Word) : encodeWord (decodeWord w) = some w := by
  rcases word_cases w with ⟨c, rfl⟩ | h
  · rw [decodeWord_word, encodeWord_instr]
  · rw [decodeWord_of_le h, encodeWord]

/-- The decoder makes well-formed instructions only. -/
theorem wellFormed_decodeWord (w : Word) : (decodeWord w).wellFormed = true := by
  rcases word_cases w with ⟨c, rfl⟩ | h
  · rw [decodeWord_word, wellFormed_instr]
  · rw [decodeWord_of_le h]
    exact decide_eq_true h

/-- The lanes of a word decode to its instruction, the bytes after them being left over (20_memory.md R73). -/
theorem decode_bytesOfWord_append (w : Word) (rest : List Byte) :
    decode (bytesOfWord w ++ rest) = .ok (decodeWord w, rest) := by
  simp [decode, bytesOfWord]

/-- Settles O2: a word and the instruction it decodes to determine each other, and bytes are the lanes of a word. -/
theorem decodeEncodeRoundTrip : Obligations.DecodeEncodeRoundTrip := by
  refine ⟨fun i bytes rest hwf hbytes => ?_, fun w => ⟨encodeWord_decodeWord w, wellFormed_decodeWord w⟩⟩
  obtain ⟨w, hw, rfl⟩ := Option.map_eq_some_iff.mp hbytes
  rw [decode_bytesOfWord_append, decodeWord_of_encodeWord i hwf w hw]

/-- Settles O1: the tabled words, and the lanes of DRAIN's word with a byte after them. -/
theorem commandWordsDecodeAsTabled : Obligations.CommandWordsDecodeAsTabled := by
  refine ⟨decode_word_nop, decode_word_poll, decode_word_drain, decode_word_rbReset, decode_word_sdReset,
    decode_word_reset, decode_word_start, decode_word_stop, decode_word_reserved_8, decode_word_reserved_alias,
    decode_word_reserved_ones, ?_⟩
  have hlanes : [0x02#8, 0x00#8, 0x00#8, 0x00#8, 0x55#8] = bytesOfWord Command.drain.word ++ [0x55#8] := by decide
  rw [hlanes, decode_bytesOfWord_append, decodeWord_word, Command.instr]

-- A reserved word written by the host.

theorem exec_reserved_host (w : Word) {s : State} (h : s.agent = .host) :
    exec (.reserved w) s = .next s.rejectWord := by
  simp [exec, execReserved, h]

/-- Settles O6: the write is rejected, with the flag of an idle machine or that of a busy one. -/
theorem reservedWordOnlySetsItsFlag : Obligations.ReservedWordOnlySetsItsFlag := by
  intro v s hv ha
  rw [exec_reserved_host v ha]
  refine ⟨decodeWord_of_le hv, fun hop => ?_, fun hop => ?_⟩
  · rw [State.rejectWord, if_pos hop, State.setErrCmd]
  · rw [State.rejectWord, if_neg hop, State.setErrBusy]

end Sys2Proof.Machine
end

section
/-! PROOFS of 30_encoding.md R92, the commits: with no input listed (log entry 1) every accepted command ends. -/

namespace Sys2Proof.Machine

-- The engine's step of each command that drains nothing: its commit.

section
variable {s : State} (ha : s.agent = .eng)
include ha

theorem exec_nop_commit (hop : s.op = some .nop) : exec .nop s = .next s.finish :=
  commandStep_eng (f := fun t => .next t.finish) ha hop

theorem exec_rbReset_commit (hop : s.op = some .rbReset) : exec .rbReset s = .next s.rewindRing.finish :=
  commandStep_eng (f := fun t => .next t.rewindRing.finish) ha hop

theorem exec_sdReset_commit (hop : s.op = some .sdReset) : exec .sdReset s = .next s.clearDecoder.finish :=
  commandStep_eng (f := fun t => .next t.clearDecoder.finish) ha hop

theorem exec_reset_commit (hop : s.op = some .reset) : exec .reset s = .next s.rewindRing.clearDecoder.finish :=
  commandStep_eng (f := fun t => .next t.rewindRing.clearDecoder.finish) ha hop

theorem exec_start_commit (hop : s.op = some .start) : exec .start s = .next (commitStart s) :=
  commandStep_eng (f := fun t => .next (commitStart t)) ha hop

theorem exec_stop_commit (hop : s.op = some .stop) : exec .stop s = .next (commitStop s) :=
  commandStep_eng (f := fun t => .next (commitStop t)) ha hop

end

-- The commits of every command.

/-- The commit of POLL is its step at J = ND. -/
theorem exec_poll_commit {s : State} (ha : s.agent = .eng) (hop : s.op = some .poll) (hph : s.ph = .snapped)
    (hj : s.j = s.nd) : exec .poll s = .next (commitPoll s) :=
  (commandStep_eng ha hop).trans (drainSteps_commit hph hj)

/-- The commit of a drain ends the command. -/
theorem exists_commit_of_drained {s : State} {c : Command} (hc : c = .drain ∨ c = .poll) (ha : s.agent = .eng)
    (hop : s.op = some c) (hph : s.ph = .snapped) (hj : s.j = s.nd) :
    ∃ t, exec c.instr s = .next t ∧ t.op = none := by
  rcases hc with rfl | rfl
  · exact ⟨_, exec_drain_commit ha hop hph hj, rfl⟩
  · exact ⟨_, exec_poll_commit ha hop hph hj, rfl⟩

/-- A command that drains nothing commits at its first engine step. -/
theorem exists_commit_of_short {s : State} {c : Command} (hc : ¬ (c = .drain ∨ c = .poll)) (ha : s.agent = .eng)
    (hop : s.op = some c) : ∃ t, exec c.instr s = .next t ∧ t.op = none := by
  cases c with
  | drain => exact absurd (.inl rfl) hc
  | poll => exact absurd (.inr rfl) hc
  | nop => exact ⟨_, exec_nop_commit ha hop, rfl⟩
  | rbReset => exact ⟨_, exec_rbReset_commit ha hop, rfl⟩
  | sdReset => exact ⟨_, exec_sdReset_commit ha hop, rfl⟩
  | reset => exact ⟨_, exec_reset_commit ha hop, rfl⟩
  | start => exact ⟨_, exec_start_commit ha hop, rfl⟩
  | stop => exact ⟨_, exec_stop_commit ha hop, rfl⟩

/-- A drain commits after SNAP and one READ for each unread sample. -/
theorem run_drained_commits {s : State} {c : Command} (hc : c = .drain ∨ c = .poll) (hi : s.inputs = [])
    (hop : s.op = some c) (hph : s.ph = .accepted) :
    ∃ t, core.run (rbCount s.params.n s.w s.r + 2) s = .next t ∧ t.op = none := by
  obtain ⟨e, hei, hreads⟩ := run_snap_reads hc hi hop hph
  obtain ⟨e', -, hea, hstep⟩ := exists_step_of_quiet
    (s := (s.snap.afterReads (rbCount s.params.n s.w s.r)).withEnv e) hei hop
  obtain ⟨t, hexec, ht⟩ := exists_commit_of_drained hc
    (s := ((s.snap.afterReads (rbCount s.params.n s.w s.r)).withEnv e).withEnv e') hea hop rfl (Nat.zero_add _)
  exact ⟨t, run_succ hreads (hstep.trans hexec), ht⟩

/-- Settles O18: a drain takes RB_COUNT <= N reads between SNAP and its commit, every other command its commit alone. -/
theorem everyCommandCommits : Obligations.EveryCommandCommits := by
  intro s c _ hi hop hph
  by_cases hc : c = .drain ∨ c = .poll
  · obtain ⟨t, hrun, ht⟩ := run_drained_commits hc hi hop hph
    exact ⟨_, t, Nat.add_le_add_right (rbCount_le ..) 2, hrun, ht⟩
  · obtain ⟨e, -, hea, hstep⟩ := exists_step_of_quiet hi hop
    obtain ⟨t, hexec, ht⟩ := exists_commit_of_short hc (s := s.withEnv e) hea hop
    exact ⟨1, t, Nat.le_add_left_of_le (by decide), run_step (hstep.trans hexec) 0, ht⟩

end Sys2Proof.Machine
end

section
/-! PROOFS of 40_ring_buffer.md, the commands: accept, engine steps and commit of START, STOP, RB_RESET and DRAIN. -/

namespace Sys2Proof.Machine

-- The accept step (10_state.md R41).

/-- The host's step of a command's instruction is its accept: the host writes the command's word. -/
theorem exec_instr_host (c : Command) {s : State} (ha : s.agent = .host) :
    exec c.instr s = .next (s.accept c) := by
  rw [← decodeWord_word c, exec_decodeWord_host c.word ha, State.afterCmdWrite, commandOfWord_eq_some_iff.mpr rfl]

theorem acceptsAs_instr (c : Command) : AcceptsAs c.instr c := by
  intro s ha
  rw [exec_instr_host c ha, State.accept]
  refine ⟨fun hop => ?_, fun hop => ?_⟩
  · rw [if_pos hop, State.take]
  · rw [if_neg hop, State.setErrBusy]

-- The commands that commit in one engine step.

/-- Settles O9: the two cases of START's commit. -/
theorem startArmsAndLoadsLast : Obligations.StartArmsAndLoadsLast := by
  refine ⟨acceptsAs_instr .start, fun s ⟨ha, hop⟩ => ?_⟩
  rw [exec_start_commit ha hop]
  rcases commitStart_cases s with ⟨harmed, heq⟩ | ⟨harmed, heq⟩ <;> rw [heq]
  · exact ⟨fun hidle => by simp [harmed] at hidle, fun _ => rfl⟩
  · exact ⟨fun _ => rfl, fun hon => by simp [harmed] at hon⟩

/-- Settles O10: the accept of every command, and STOP's commit. -/
theorem stopDisarms : Obligations.StopDisarms :=
  ⟨acceptsAs_instr .stop, fun _ ⟨ha, hop⟩ => exec_stop_commit ha hop⟩

/-- Settles O11: RB_COUNT is 0 because the cursors meet. -/
theorem rbResetRewindsBothCursors : Obligations.RbResetRewindsBothCursors :=
  ⟨acceptsAs_instr .rbReset, fun _ ⟨ha, hop⟩ => ⟨exec_rbReset_commit ha hop, rbCount_self _ 0⟩⟩

-- The drain (40_ring_buffer.md R115, R118).

theorem snapsThenReads_of_drains {c : Command} (hc : c = .drain ∨ c = .poll) : SnapsThenReads c :=
  fun _ ⟨ha, hop⟩ => ⟨exec_snap hc ha hop, exec_read hc ha hop⟩

/-- Settles O14: both commands take the same steps before their commits. -/
theorem drainSnapsThenReads : Obligations.DrainSnapsThenReads :=
  ⟨snapsThenReads_of_drains (.inl rfl), snapsThenReads_of_drains (.inr rfl)⟩

/-- APPEND within REM_CAP keeps every sample and leaves REM_OVF (43_streaming.md R181). -/
theorem drainCommit_of_fits {s : State} (h : s.rem.length + s.out.length ≤ s.params.remCap) :
    s.drainCommit = { s with r := s.w0, rem := s.rem ++ s.out } := by
  have hovf : overflows s.params.remCap s.rem s.out = false := by simpa [overflows] using h
  rw [State.drainCommit, appended_fits h, hovf, Bool.or_false]

/-- APPEND beyond REM_CAP keeps the most recent samples and sets REM_OVF (43_streaming.md R181). -/
theorem drainCommit_of_overflows {s : State} (h : s.rem.length + s.out.length > s.params.remCap) :
    s.drainCommit = { s with
      r := s.w0, remOvf := true
      rem := (s.rem ++ s.out).drop (s.rem.length + s.out.length - s.params.remCap) } := by
  have hovf : overflows s.params.remCap s.rem s.out = true := by simpa [overflows] using h
  rw [State.drainCommit, appended_eq_drop, List.length_append, hovf, Bool.or_true]

/-- Settles O15: the commit is APPEND's, in its two cases. -/
theorem drainCommitAppends : Obligations.DrainCommitAppends := by
  refine ⟨acceptsAs_instr .drain, snapsThenReads_of_drains (.inl rfl), fun s ⟨ha, hop⟩ hph hj => ?_⟩
  rw [exec_drain_commit ha hop hph hj]
  refine ⟨fun hfits => ?_, fun hover => ?_⟩
  · rw [drainCommit_of_fits hfits, State.finish]
  · rw [drainCommit_of_overflows hover, State.finish]

end Sys2Proof.Machine
end

section
/-! PROOFS of 40_ring_buffer.md R110 and R117, the capture: what an EDGE event stores, and what it leaves. -/

namespace Sys2Proof.Machine

/-- s after an armed CAPTURE (40_ring_buffer.md R110). -/
def State.afterCapture (s : State) : State := (s.storeSample (tc32 s.interval)).advanceWrite s.sampleNow

theorem exec_capture_armed {s : State} (h : s.armed = true) : exec .capture s = .next s.afterCapture := by
  rw [exec_capture, if_pos h, State.afterCapture]

theorem exec_capture_unarmed {s : State} (h : s.armed = false) : exec .capture s = .next s := by
  rw [exec_capture, if_neg (by simp [h])]

/-- An armed CAPTURE writes the slot store, w and LAST. -/
theorem afterCapture_eq (s : State) : s.afterCapture = { s with
    mem := Memory.putWord s.mem s.storeAddr (tc32 s.interval), w := s.w + 1, last := s.sampleNow } := rfl

/-- The slot at w holds the interval after a capture. -/
theorem slot_afterCapture_same (s : State) : s.afterCapture.slot s.slotIndex = tc32 s.interval := by
  rw [State.afterCapture, slot_advanceWrite, slot_storeSample_same]

theorem slot_afterCapture_other (s : State) {i : Nat} (h : i ≠ s.slotIndex) : s.afterCapture.slot i = s.slot i := by
  rw [State.afterCapture, slot_advanceWrite, slot_storeSample_other s _ h]

/-- Settles O19: the slot at w holds the interval, and every other slot what it held. -/
theorem captureStoresTheInterval : Obligations.CaptureStoresTheInterval := fun s =>
  ⟨exec_capture_unarmed, fun harmed =>
    ⟨_, _, afterCapture_eq s, exec_capture_armed harmed, slot_afterCapture_same s, fun _ => slot_afterCapture_other s⟩⟩

/-- Settles O16: no in-flight field moves, and the slot the next READ looks at is the one at w or another. -/
theorem captureDuringDrainReplacesOneSample : Obligations.CaptureDuringDrainReplacesOneSample := by
  intro s t harmed h
  rw [exec_capture_armed harmed] at h
  obtain rfl := Host.Outcome.next.inj h
  have hnext : s.afterCapture.nextSample = s.afterCapture.slot ((s.s0.toNat + s.j) % s.params.n) := rfl
  refine ⟨rfl, rfl, rfl, rfl, rfl, rfl, rfl, fun hother => ?_, fun hsame => ?_⟩
  · rw [hnext, slot_afterCapture_other s hother.symm, State.nextSample]
  · rw [hnext, ← hsame]
    exact slot_afterCapture_same s

/-- Settles O35: unarmed nothing changes at all, and armed the bytes written are the four of the slot at w. -/
theorem captureFrame : Obligations.CaptureFrame := by
  intro s t h
  cases harmed : s.armed with
  | false =>
    rw [exec_capture_unarmed harmed] at h
    obtain rfl := Host.Outcome.next.inj h
    simp [SameMemory, SameDecoder, SameFlags, SameFlight, SameModel, harmed]
  | true =>
    rw [exec_capture_armed harmed, afterCapture_eq] at h
    obtain rfl := Host.Outcome.next.inj h
    simp only [SameDecoder, SameFlags, SameFlight, SameModel, harmed, and_self, true_and, reduceCtorEq,
      false_imp_iff, and_true]
    rintro _ rfl a' hout
    exact byte_putWord_outside _ _ _ _ _ hout

end Sys2Proof.Machine
end

section
/-! PROOFS of 40_ring_buffer.md, the frames of the commands, and that no step is stuck. -/

namespace Sys2Proof.Machine

/-- What the commit of START leaves (40_ring_buffer.md R112). -/
@[simp] theorem commitStart_fields (s : State) :
    (commitStart s).params = s.params ∧ (commitStart s).mem = s.mem ∧ (commitStart s).w = s.w ∧
    (commitStart s).r = s.r ∧ (commitStart s).rem = s.rem ∧ (commitStart s).dstate = s.dstate ∧
    (commitStart s).result = s.result ∧ (commitStart s).value = s.value ∧
    (commitStart s).partialBits = s.partialBits ∧ (commitStart s).resync = s.resync ∧
    (commitStart s).errBusy = s.errBusy ∧ (commitStart s).errCmd = s.errCmd ∧ (commitStart s).remOvf = s.remOvf ∧
    (commitStart s).ph = s.ph ∧ (commitStart s).w0 = s.w0 ∧ (commitStart s).nd = s.nd ∧ (commitStart s).s0 = s.s0 ∧
    (commitStart s).j = s.j ∧ (commitStart s).out = s.out ∧ (commitStart s).rs = s.rs ∧
    (commitStart s).now = s.now ∧ (commitStart s).inputs = s.inputs ∧ (commitStart s).agent = s.agent ∧
    (commitStart s).rdata = s.rdata ∧ (commitStart s).fnOut = s.fnOut ∧ (commitStart s).draws = s.draws ∧
    (commitStart s).era = s.era := by
  rcases commitStart_cases s with ⟨-, heq⟩ | ⟨-, heq⟩ <;> simp [heq]

/-- The commit of a command that drains nothing. -/
theorem exec_short_cases {c : Command} {s t : State} (hc : ¬ (c = .drain ∨ c = .poll)) (hs : EngineHas c s)
    (h : exec c.instr s = .next t) :
    (c = .nop ∧ t = s.finish) ∨ (c = .start ∧ t = commitStart s) ∨ (c = .stop ∧ t = commitStop s) ∨
      (c = .rbReset ∧ t = s.rewindRing.finish) ∨ (c = .sdReset ∧ t = s.clearDecoder.finish) ∨
      (c = .reset ∧ t = s.rewindRing.clearDecoder.finish) := by
  obtain ⟨hdrain, hpoll⟩ := not_or.mp hc
  simpa [hdrain, hpoll] using exec_engine hs.1 hs.2 h

/-- Settles O33: the fields that each commit writes. -/
theorem shortCommandFrame : Obligations.ShortCommandFrame := by
  intro c s t hdrain hpoll hs h
  rcases exec_short_cases (not_or.mpr ⟨hdrain, hpoll⟩) hs h with
    ⟨rfl, rfl⟩ | ⟨rfl, rfl⟩ | ⟨rfl, rfl⟩ | ⟨rfl, rfl⟩ | ⟨rfl, rfl⟩ | ⟨rfl, rfl⟩ <;>
    simp [commitStop, SameMemory, SameFlags, SameFlight, SameModel, SameDecoder]

/-- The engine's step of DRAIN or POLL is SNAP, READ or the commit. -/
theorem exec_drains_cases {c : Command} {s t : State} (hc : c = .drain ∨ c = .poll) (hs : EngineHas c s)
    (h : exec c.instr s = .next t) :
    (s.ph = .accepted ∧ t = s.snap) ∨ (s.ph = .snapped ∧ s.j < s.nd ∧ t = s.readSlot) ∨
      (c = .drain ∧ s.ph = .snapped ∧ s.j = s.nd ∧ t = s.drainCommit.finish) ∨
      (c = .poll ∧ s.ph = .snapped ∧ s.j = s.nd ∧ t = commitPoll s) := by
  rcases hc with rfl | rfl <;> simpa using exec_engine hs.1 hs.2 h

/-- Settles O34: SNAP and READ keep OP and write in-flight fields only; the commits end the command. -/
theorem drainAndPollFrame : Obligations.DrainAndPollFrame := by
  intro c s t hc hs h
  rcases exec_drains_cases hc hs h with ⟨-, rfl⟩ | ⟨-, -, rfl⟩ | ⟨rfl, -, -, rfl⟩ | ⟨rfl, -, -, rfl⟩
  · simp [SameMemory, SameModel, SameDecoder]
  · simp [SameMemory, SameModel, SameDecoder]
  · simp [SameMemory, SameModel]
  · simp [commitPoll, SameMemory, SameModel]

/-- With J <= ND (10_state.md R37) the command in flight has an engine step. -/
theorem exists_exec_of_flightOk {s : State} {c : Command} (h : s.FlightOk) (ha : s.agent = .eng)
    (hop : s.op = some c) : ∃ t, exec c.instr s = .next t := by
  by_cases hc : c = .drain ∨ c = .poll
  · cases hph : s.ph with
    | accepted => exact ⟨_, exec_snap hc ha hop hph⟩
    | snapped =>
      obtain ⟨-, -, -, hle, -⟩ := h (by simp [hop]) hph
      rcases hle.lt_or_eq with hj | hj
      · exact ⟨_, exec_read hc ha hop hph hj⟩
      · obtain ⟨t, ht, -⟩ := exists_commit_of_drained hc ha hop hph hj
        exact ⟨t, ht⟩
  · obtain ⟨t, ht, -⟩ := exists_commit_of_short hc ha hop
    exact ⟨t, ht⟩

theorem hostReadStep_ne_fault (off : BitVec 18) (width : Nat) (s : State) (f : Fault) :
    hostReadStep off width s ≠ .fault f := by
  unfold hostReadStep
  split <;> simp

theorem hostWriteStep_ne_fault (off : BitVec 18) (width : Nat) (v : Word) (s : State) (f : Fault) :
    hostWriteStep off width v s ≠ .fault f := by
  unfold hostWriteStep
  split <;> simp

theorem step_of_rst {s : State} {rest : List Input} (h : s.inputs = .rst :: rest) :
    step s = .next (State.powerOn { s with inputs := rest }) := by
  simp [step, fetch, h, takeInput]

/-- Settles O47: a step is an engine step of the command in flight, or it ends in no fault. -/
theorem stepNeverFaultsUnderInv : Obligations.StepNeverFaultsUnderInv := by
  intro s f hinv
  have hengine : ∀ (e : Env) (c : Command), e.agent = .eng → s.op = some c →
      exec c.instr (s.withEnv e) ≠ .fault f := by
    intro e c ha hop
    obtain ⟨t, ht⟩ := exists_exec_of_flightOk (hinv.withEnv e).flight ha (c := c) hop
    simp [ht]
  rcases hi : s.inputs with _ | ⟨i, rest⟩
  · rcases hop : s.op with _ | c
    · simp [step_of_quiet_idle hi hop]
    · rw [step_of_quiet hi hop]
      exact hengine ⟨_, _, .eng, _, _⟩ c rfl hop
  · cases i with
    | edge now => simp [step_of_edge hi, exec_capture]
    | engine now =>
      rcases hop : s.op with _ | c
      · simp [step_of_engine_idle hi hop]
      · rw [step_of_engine hi hop]
        exact hengine ⟨_, _, .eng, _, _⟩ c rfl hop
    | hostRead off width =>
      rw [step_of_hostRead hi]
      exact hostReadStep_ne_fault off width _ f
    | hostWrite off width v =>
      by_cases hcmd : off = cmdOffset ∧ width = 4
      · obtain ⟨rfl, rfl⟩ := hcmd
        rw [step_of_cmdWrite hi, exec_decodeWord_host v rfl]
        simp
      · rw [step_of_hostWrite hi hcmd]
        exact hostWriteStep_ne_fault off width v _ f
    | rst => simp [step_of_rst hi]

end Sys2Proof.Machine
end

section
/-! PROOFS of 41_matcher_scanner.md: the tolerance formula and its windows, the first match, and the frame of the functions. -/

namespace Sys2Proof.Machine

-- The functions evaluated alone: each writes its value to fnOut and nothing else.

theorem exec_matchOp (m : Sample) (sp : Setpoint) (s : State) :
    exec (.matchOp m sp) s = .next { s with fnOut := .matched (matchSample m sp) } := rfl

theorem exec_scan (seq : TimeSeq) (sp : Setpoint) (s : State) :
    exec (.scan seq sp) s = .next { s with fnOut := .scanned (scanSeq seq sp) } := rfl

theorem exec_decode (seq : TimeSeq) (s : State) :
    exec (.decode seq) s = .next { s with fnOut := .decoded (decodeSeq seq) } := rfl

-- SCAN (41_matcher_scanner.md R142).

/-- SCAN is the library's search for the first element that satisfies a predicate. -/
theorem scanSeq_eq_findIdx? (seq : TimeSeq) (sp : Setpoint) : scanSeq seq sp = seq.findIdx? (matchSample · sp) := by
  induction seq with
  | nil => rfl
  | cons m seq ih => rw [scanSeq, List.findIdx?_cons, ih]

/-- An index is found exactly when its sample matches and no earlier one does. -/
theorem scanSeq_eq_some_iff {seq : TimeSeq} {sp : Setpoint} {i : Nat} :
    scanSeq seq sp = some i ↔ i < seq.length ∧ matchSample (seq.getD i 0) sp = true ∧
      ∀ k, k < i → matchSample (seq.getD k 0) sp = false := by
  rw [scanSeq_eq_findIdx?, List.findIdx?_eq_some_iff_getElem, ← exists_prop]
  refine exists_congr fun hi => ?_
  rw [List.getD_eq_getElem _ _ hi]
  refine and_congr_right fun _ => forall₂_congr fun k hk => ?_
  rw [List.getD_eq_getElem _ _ (hk.trans hi), Bool.not_eq_true]

/-- Settles O24: NOT_FOUND means that nothing matches, and a found index is the first match. -/
theorem scanFindsTheFirstMatch : Obligations.ScanFindsTheFirstMatch := fun seq sp s =>
  ⟨scanSeq seq sp, exec_scan seq sp s, scanSeq_eq_none.mp, fun _ => scanSeq_eq_some_iff.mp⟩

-- MATCH (41_matcher_scanner.md R140, R141).

theorem matchUs_eq_decide_abs (m s : Int) : matchUs m s = decide (|m - s| < s * 12032 / 32768) := by
  rw [matchUs, Int.natCast_natAbs]

/-- Settles O22: the model's distance is the absolute value of the difference. -/
theorem matchIsTheToleranceFormula : Obligations.MatchIsTheToleranceFormula := by
  intro m sp s
  have hformula := matchUs_eq_decide_abs m.toInt (setpointUs sp)
  exact ⟨hformula, by rw [exec_matchOp, matchSample, int32, hformula]⟩

/-- MATCH answers true exactly for the samples from lo to hi, where the tolerance around the setpoint comes to these. -/
theorem exec_matchOp_eq_matched_iff {sp : Setpoint} {lo hi : Int}
    (hlo : lo = setpointUs sp - setpointUs sp * 12032 / 32768 + 1)
    (hhi : hi = setpointUs sp + setpointUs sp * 12032 / 32768 - 1) (m : Sample) (s : State) :
    exec (.matchOp m sp) s = .next { s with fnOut := .matched true } ↔ lo ≤ m.toInt ∧ m.toInt ≤ hi := by
  have hanswer : exec (.matchOp m sp) s = .next { s with fnOut := .matched true } ↔ matchSample m sp = true := by
    simp [exec_matchOp]
  rw [hanswer, matchSample_iff, hlo, hhi, Int.add_one_le_iff, Int.le_sub_one_iff]

/-- Settles O23: the ends of each window are the setpoint less and plus its tolerance, exclusive. -/
theorem matchingWindows : Obligations.MatchingWindows := by
  rintro m s _ rfl
  refine ⟨?_, ?_, ?_, ?_, ?_, ?_⟩ <;> exact exec_matchOp_eq_matched_iff (by decide) (by decide) m s

-- The frame (41_matcher_scanner.md R143, 42_nec_decoder.md R161).

/-- Each of the functions writes fnOut alone. -/
theorem exec_function_eq {m : Sample} {sp : Setpoint} {seq : TimeSeq} {i : Instr}
    (hi : i = .matchOp m sp ∨ i = .scan seq sp ∨ i = .decode seq) (s : State) :
    ∃ v, exec i s = .next { s with fnOut := v } := by
  rcases hi with rfl | rfl | rfl
  · exact ⟨_, exec_matchOp m sp s⟩
  · exact ⟨_, exec_scan seq sp s⟩
  · exact ⟨_, exec_decode seq s⟩

/-- Settles O36: fnOut is none of the state of NECRX. -/
theorem functionsFrame : Obligations.FunctionsFrame := by
  intro m sp seq i s t hi h
  obtain ⟨v, hv⟩ := exec_function_eq hi s
  obtain rfl := Host.Outcome.next.inj (hv.symm.trans h)
  simp [SameMemory, SameCapture, SameDecoder, SameFlags, SameFlight, SameModel]

end Sys2Proof.Machine
end

section
/-! PROOFS of 42_nec_decoder.md: DECODE evaluated alone, its checks before the bit pairs and its answers on them. -/

namespace Sys2Proof.Machine

/-- DECODE alone answers d exactly when a decode attempt's DECODE does. -/
theorem exec_decode_eq_decoded_iff {seq : TimeSeq} {d : DecodeOut} {s : State} :
    exec (.decode seq) s = .next { s with fnOut := .decoded d } ↔ decodeSeq seq = d := by
  simp [exec_decode]

-- The checks before the bit pairs (42_nec_decoder.md R161 steps 1 to 4).

theorem decodeSeq_of_three_le {seq : TimeSeq} (h : 3 ≤ seq.length) :
    decodeSeq seq =
      if matchSample (seq.getD 1 0) .rptSpace = true ∧ matchSample (seq.getD 2 0) .zeroSpace = true then .repeatFrame
      else if matchSample (seq.getD 1 0) .hdrSpace = false then .noMatch
      else if seq.length < 66 then .short
      else decodePairs 32 0 0 (seq.drop 2) := by
  obtain ⟨x, a, b, rest, rfl⟩ := exists_three h
  have hlen : (b :: rest).length < 2 * 32 ↔ (x :: a :: b :: rest).length < 66 := by
    simp only [List.length_cons]; omega
  simp only [decodeSeq_cons3, hlen, List.getD_cons_succ, List.getD_cons_zero, Bool.and_eq_true, Bool.not_eq_true',
    List.drop_succ_cons, List.drop_zero]

/-- Settles O25: below three samples there is nothing to check, and from three on the checks come in the order of R161. -/
theorem decodeChecksHeaderAndLength : Obligations.DecodeChecksHeaderAndLength := by
  intro seq s
  refine ⟨decodeSeq seq, rfl, exec_decode seq s, decodeSeq_short, fun hthree => ?_⟩
  rw [decodeSeq_of_three_le hthree]
  refine ⟨fun hrepeat => if_pos hrepeat, fun hrepeat => ⟨fun hspace => ?_, fun hspace hshort => ?_⟩⟩
  · rw [if_neg hrepeat, if_pos hspace]
  · rw [if_neg hrepeat, if_neg (ne_false_of_eq_true hspace), if_pos hshort]

-- The bit pairs (42_nec_decoder.md R161 step 5, R162, R163), read from bit 31 on into a word that starts as 0.

theorem dataShaped.pairs_le_length {seq : TimeSeq} (h : dataShaped seq) : 2 * 32 ≤ (seq.drop 2).length := by
  obtain ⟨hlen, -, -⟩ := h
  rw [List.length_drop]
  omega

theorem pairIs_drop_two_iff_codeBit (seq : TimeSeq) (v : Word) (k : Nat) :
    pairIs (seq.drop 2) k (v.getLsbD (31 - (0 + k))) ↔ bitAt seq k (codeBit v k) := by
  rw [pairIs_drop_two, Nat.zero_add, codeBit]

/-- The pairs of a sequence that passes the checks spell v. -/
theorem decodePairs_drop_two_eq_data_iff {seq : TimeSeq} {v : Word} (h : dataShaped seq) :
    decodePairs 32 0 0 (seq.drop 2) = .data v ↔ ∀ k < 32, bitAt seq k (codeBit v k) := by
  rw [decodePairs_data_iff rfl h.pairs_le_length (by simp)]
  simp only [pairIs_drop_two_iff_codeBit]
  exact and_iff_right fun x hx hx' => absurd hx (by omega)

/-- Settles O26: DATA comes from the bit pairs alone, and the pairs fix each bit of the value. -/
theorem dataExactlyForMatchingPairs : Obligations.DataExactlyForMatchingPairs := by
  intro seq v s
  rw [exec_decode_eq_decoded_iff, decodeSeq_iff_pairs (by simp) (by simp) (by simp)]
  exact and_congr_right decodePairs_drop_two_eq_data_iff

/-- Pair k of a sequence that passes the checks is the first bad one, and p holds the bits before it alone. -/
theorem decodePairs_drop_two_eq_fault_iff {seq : TimeSeq} {k : Nat} {part : Part} {p : Word} (h : dataShaped seq) :
    decodePairs 32 0 0 (seq.drop 2) = .fault k part p ↔
      k < 32 ∧ (∀ i < k, bitAt seq i (codeBit p i)) ∧ (∀ b < 32 - k, p.getLsbD b = false) ∧
        failsAt (seq.drop 2) k part := by
  rw [decodePairs_fault_iff rfl h.pairs_le_length (by simp)]
  simp only [pairIs_drop_two_iff_codeBit]
  constructor
  · rintro ⟨d, hd, rfl, -, hgood, hlow, hbad⟩
    rw [Nat.zero_add]
    exact ⟨hd, hgood, hlow, hbad⟩
  · rintro ⟨hk, hgood, hlow, hbad⟩
    exact ⟨k, hk, (Nat.zero_add k).symm, fun x hx hx' => absurd hx (by omega), hgood, hlow, hbad⟩

theorem failsAt_drop_two_mark (seq : TimeSeq) (k : Nat) :
    failsAt (seq.drop 2) k .mark ↔ matchSample (markAt seq k) .bitMark = false := by
  simp [failsAt, markAt, List.getD_eq_getElem?_getD]

theorem failsAt_drop_two_space (seq : TimeSeq) (k : Nat) :
    failsAt (seq.drop 2) k .space ↔
      matchSample (markAt seq k) .bitMark = true ∧ matchSample (spaceAt seq k) .oneSpace = false ∧
        matchSample (spaceAt seq k) .zeroSpace = false := by
  have hindex : 2 + (2 * k + 1) = 3 + 2 * k := by omega
  simp [failsAt, markAt, spaceAt, List.getD_eq_getElem?_getD, hindex]

/-- Settles O27: FAULT comes from the bit pairs alone, at the first pair that fails, and names the interval that fails. -/
theorem faultExactlyAtTheFirstBadInterval : Obligations.FaultExactlyAtTheFirstBadInterval := by
  intro seq k part p s
  rw [exec_decode_eq_decoded_iff, decodeSeq_iff_pairs (by simp) (by simp) (by simp),
    and_congr_right decodePairs_drop_two_eq_fault_iff]
  cases part with
  | mark => rw [failsAt_drop_two_mark]
  | space => rw [failsAt_drop_two_space]

end Sys2Proof.Machine
end

section
/-! PROOFS of 43_streaming.md: the short commands, a decode attempt, and the whole commit of POLL. -/

namespace Sys2Proof.Machine

-- The commands that commit in one engine step (43_streaming.md R185 to R187).

/-- Settles O8: NOP's commit is the end of every commit and nothing else. -/
theorem nopOnlyEndsItself : Obligations.NopOnlyEndsItself :=
  ⟨acceptsAs_instr .nop, fun _ ⟨ha, hop⟩ => exec_nop_commit ha hop⟩

/-- Settles O12: SD_RESET's commit clears the decoder. -/
theorem sdResetClearsTheDecoder : Obligations.SdResetClearsTheDecoder :=
  ⟨acceptsAs_instr .sdReset, fun _ ⟨ha, hop⟩ => exec_sdReset_commit ha hop⟩

/-- Settles O13: RESET's commit rewinds the ring and clears the decoder. -/
theorem resetDoesBothResets : Obligations.ResetDoesBothResets :=
  ⟨acceptsAs_instr .reset, fun _ ⟨ha, hop⟩ => exec_reset_commit ha hop⟩

-- ATTEMPT (43_streaming.md R182): what it answers, by SCAN's answer.

theorem attempt_nil : attempt [] = .empty := rfl

theorem attempt_of_scan_none {t : TimeSeq} (hne : t ≠ []) (h : scanSeq t .hdrMark = none) :
    attempt t = .noHeader := by
  rw [attempt, if_neg (by simpa using hne), h]

theorem attempt_of_scan_some {t : TimeSeq} {i : Nat} (h : scanSeq t .hdrMark = some i) :
    attempt t = .found i (decodeSeq (t.drop i)) := by
  rw [attempt, if_neg (by have := scanSeq_lt h; omega), h]

/-- An attempt is one of its three kinds, SCAN having found what it says. -/
theorem attempt_cases (t : TimeSeq) :
    (t = [] ∧ attempt t = .empty) ∨ (t ≠ [] ∧ scanSeq t .hdrMark = none ∧ attempt t = .noHeader) ∨
      ∃ i, t ≠ [] ∧ scanSeq t .hdrMark = some i ∧ attempt t = .found i (decodeSeq (t.drop i)) := by
  by_cases hne : t = []
  · exact .inl ⟨hne, hne ▸ attempt_nil⟩
  · cases hscan : scanSeq t .hdrMark with
    | none => exact .inr (.inl ⟨hne, rfl, attempt_of_scan_none hne hscan⟩)
    | some i => exact .inr (.inr ⟨i, hne, rfl, attempt_of_scan_some hscan⟩)

theorem attempt_eq_empty_iff {t : TimeSeq} : attempt t = .empty ↔ t = [] := by
  rcases attempt_cases t with ⟨rfl, h⟩ | ⟨hne, -, h⟩ | ⟨i, hne, -, h⟩
  · simp [h]
  · simp [h, hne]
  · simp [h, hne]

theorem attempt_eq_noHeader_iff {t : TimeSeq} : attempt t = .noHeader ↔ t ≠ [] ∧ scanSeq t .hdrMark = none := by
  rcases attempt_cases t with ⟨rfl, h⟩ | ⟨hne, hscan, h⟩ | ⟨i, -, hscan, h⟩
  · simp [h]
  · simp [h, hne, hscan]
  · simp [h, hscan]

theorem attempt_eq_found_iff {t : TimeSeq} {i : Nat} {d : DecodeOut} :
    attempt t = .found i d ↔ scanSeq t .hdrMark = some i ∧ d = decodeSeq (t.drop i) := by
  refine ⟨fun h => ?_, fun ⟨hscan, hd⟩ => hd ▸ attempt_of_scan_some hscan⟩
  rcases attempt_cases t with ⟨-, h'⟩ | ⟨-, -, h'⟩ | ⟨k, -, hscan, h'⟩ <;> cases h'.symm.trans h
  exact ⟨hscan, rfl⟩

/-- Settles O56: SCAN decides between the kinds, and SCAN finds the first match. -/
theorem attemptDecodesFromTheFirstHeader : Obligations.AttemptDecodesFromTheFirstHeader := by
  refine fun t => ⟨attempt_eq_empty_iff, ?_, fun i d => ?_⟩
  · rw [attempt_eq_noHeader_iff, scanSeq_eq_none]
  · rw [attempt_eq_found_iff, scanSeq_eq_some_iff, and_assoc, and_assoc]

-- Samples appended after an attempt (43_streaming.md R184, R188, R189).

/-- The header found stays the first, and DECODE sees the suffix with the samples appended. -/
theorem attempt_append {t : TimeSeq} {i : Nat} {d : DecodeOut} (h : attempt t = .found i d) (more : TimeSeq) :
    attempt (t ++ more) = .found i (decodeSeq (t.drop i ++ more)) := by
  obtain ⟨hscan, -⟩ := attempt_eq_found_iff.mp h
  rw [attempt_of_scan_some (scanSeq_append hscan more), List.drop_append_of_le_length (scanSeq_lt hscan).le]

/-- An outcome other than SHORT is final. -/
theorem attempt_append_of_ne_short {t : TimeSeq} {i : Nat} {d : DecodeOut} (h : attempt t = .found i d)
    (hd : d ≠ .short) (more : TimeSeq) : attempt (t ++ more) = .found i d := by
  obtain ⟨-, rfl⟩ := attempt_eq_found_iff.mp h
  rw [attempt_append h, decodeSeq_append hd]

/-- Settles O30: neither a fault nor NO_MATCH is SHORT. -/
theorem faultAndNoMatchArePersistent : Obligations.FaultAndNoMatchArePersistent := fun _ more _ =>
  ⟨fun _ _ _ h => attempt_append_of_ne_short h (by simp) more, fun h => attempt_append_of_ne_short h (by simp) more⟩

-- The canonical frame (30_encoding.md R99) decodes to its code.

/-- The canonical intervals of a bit are a pair that is received as that bit. -/
theorem pairIs_bitIntervals (b : Bool) (rest : TimeSeq) : pairIs (bitIntervals b ++ rest) 0 b := by
  rw [bitIntervals, List.cons_append, List.cons_append, pairIs_zero]
  cases b <;> decide

/-- In a row of canonical intervals the pair at position i is the i-th bit. -/
theorem pairIs_flatMap_bitIntervals (bits : List Bool) {i : Nat} (hi : i < bits.length) :
    pairIs (bits.flatMap bitIntervals) i bits[i] := by
  induction bits generalizing i with
  | nil => exact absurd hi (by simp)
  | cons b bits ih =>
    rw [List.flatMap_cons]
    cases i with
    | zero => exact pairIs_bitIntervals b _
    | succ i => exact (pairIs_succ _ _ _ _ _).mpr (ih (by simpa using hi))

/-- The bits of a code in the order received. -/
def codeBits (v : Word) : List Bool := (List.range 32).map (codeBit v)

theorem frameIntervals_eq (v : Word) :
    frameIntervals v = 9000#32 :: 4500#32 :: (codeBits v).flatMap bitIntervals := by
  rw [frameIntervals, codeBits, List.flatMap_map]

theorem frameIntervals_length (v : Word) : (frameIntervals v).length = 66 := by
  simp [frameIntervals, bitIntervals]

theorem bitAt_frameIntervals (v : Word) {k : Nat} (hk : k < 32) : bitAt (frameIntervals v) k (codeBit v k) := by
  have hpair := pairIs_flatMap_bitIntervals (codeBits v) (i := k) (by simpa [codeBits] using hk)
  rw [← pairIs_drop_two, frameIntervals_eq]
  simpa [codeBits] using hpair

theorem dataShaped_frameIntervals (v : Word) : dataShaped (frameIntervals v) := by
  have hspace : (frameIntervals v).getD 1 0 = 4500#32 := rfl
  rw [dataShaped, frameIntervals_length, hspace]
  exact ⟨le_rfl, by decide, fun ⟨hrepeat, _⟩ => absurd hrepeat (by decide)⟩

theorem decodeSeq_frameIntervals (v : Word) : decodeSeq (frameIntervals v) = .data v := by
  rw [decodeSeq_iff_pairs (by simp) (by simp) (by simp)]
  have hshape := dataShaped_frameIntervals v
  exact ⟨hshape, (decodePairs_drop_two_eq_data_iff hshape).mpr fun _ hk => bitAt_frameIntervals v hk⟩

theorem decodeSeq_frameIntervals_append (v : Word) (rest : TimeSeq) :
    decodeSeq (frameIntervals v ++ rest) = .data v := by
  rw [decodeSeq_append (by simp [decodeSeq_frameIntervals]), decodeSeq_frameIntervals]

/-- Settles O31: the suffix kept from the SHORT attempt is decoded together with the new samples. -/
theorem shortAttemptResumesWhole : Obligations.ShortAttemptResumesWhole := by
  refine fun t more i h => ⟨attempt_append h more, fun v rest hframe => ?_⟩
  rw [attempt_append h, hframe, decodeSeq_frameIntervals_append]

/-- Noise without a header mark is passed over, and the frame after it decodes. -/
theorem attempt_noise_frame {noise : TimeSeq} (h : ∀ m ∈ noise, matchSample m .hdrMark = false) (v : Word)
    (rest : TimeSeq) : attempt (noise ++ (frameIntervals v ++ rest)) = .found noise.length (.data v) := by
  have hheader : scanSeq (frameIntervals v ++ rest) .hdrMark = some 0 := scanSeq_hit (by decide) _
  have hscan : scanSeq (noise ++ (frameIntervals v ++ rest)) .hdrMark = some noise.length := by
    rw [scanSeq_skip h, hheader, Option.map_some, Nat.zero_add]
  rw [attempt_of_scan_some hscan, List.drop_left, decodeSeq_frameIntervals_append]

-- The commit of POLL (43_streaming.md R183).

theorem commitPoll_of_fault {s : State} (h : s.dstate = .fault) : commitPoll s = s.drainCommit.finish := by
  rw [commitPoll, State.decodeOnce, if_pos (show s.drainCommit.dstate = .fault from h)]

theorem commitPoll_of_attempt {s : State} {a : Attempt} (h : s.dstate ≠ .fault)
    (ha : attempt (appended s.params.remCap s.rem s.out) = a) : commitPoll s = (s.drainCommit.record a).finish := by
  rw [commitPoll, State.decodeOnce, if_neg (show s.drainCommit.dstate ≠ .fault from h), ← ha, State.drainCommit]

/-- The RESULT word of a fault at one of the 32 bits, as a number (10_state.md R43). -/
theorem resultFault_eq {k : Nat} (hk : k < 32) (q : Part) :
    resultFault k q = BitVec.ofNat 32 (3 + 256 * k + (if q = .space then 8192 else 0)) := by
  apply BitVec.eq_of_toNat_eq
  rw [resultFault, resultWord_toNat]
  cases q <;> simp [partCode] <;> omega

/-- Settles O28: the commit is APPEND's and, without a latched fault, the record of the attempt, case by case. -/
theorem pollCommitRecordsTheOutcome : Obligations.PollCommitRecordsTheOutcome := by
  refine ⟨acceptsAs_instr .poll, snapsThenReads_of_drains (.inr rfl), fun s ⟨ha, hop⟩ hph hj t ht u hu => ?_⟩
  have hrem : appended s.params.remCap s.rem s.out = t := by rw [appended, List.length_append, ht]
  have hdrained : s.drainCommit.finish = u := by
    rw [State.drainCommit, hrem, overflows, List.length_append, hu, State.finish]
  rw [exec_poll_commit ha hop hph hj]
  by_cases hlatched : s.dstate = .fault
  · rw [if_pos hlatched, commitPoll_of_fault hlatched, hdrained]
  · rw [if_neg hlatched, commitPoll_of_attempt hlatched rfl, hrem]
    subst hdrained
    cases hattempt : attempt t with
    | empty => rfl
    | noHeader => rfl
    | found i d =>
      cases d with
      | short => rfl
      | noMatch => rfl
      | repeatFrame => rw [← hrem]; rfl
      | data v => rw [← hrem]; rfl
      | fault k part p =>
        obtain ⟨hk, -⟩ := fault_bounds_of_decodeSeq (eq_decodeSeq_of_attempt_eq_found hattempt).symm
        rw [← hrem, State.record, State.takeDecodeFault, resultFault_eq hk]
        rfl

/-- Settles O29: the remainder fits, so the attempt is the one on noise and frame, and DATA consumes both. -/
theorem pollDecodesACanonicalFrame : Obligations.PollDecodesACanonicalFrame := by
  intro s noise rest v ⟨ha, hop⟩ hph hj hidle hfits hrem hnoise
  have happend : appended s.params.remCap s.rem s.out = noise ++ (frameIntervals v ++ rest) := by
    rw [appended_fits hfits, hrem]
  have hcommit := commitPoll_of_attempt hidle (happend ▸ attempt_noise_frame hnoise v rest)
  refine ⟨commitPoll s, exec_poll_commit ha hop hph hj, ?_⟩
  rw [hcommit]
  refine ⟨rfl, rfl, ?_, rfl, rfl, rfl⟩
  calc (appended s.params.remCap s.rem s.out).drop (noise.length + 66)
      = (frameIntervals v ++ rest).drop 66 := by rw [happend, List.drop_length_add_append]
    _ = rest := List.drop_left' (frameIntervals_length v)

end Sys2Proof.Machine
end

section
/-! PROOFS of 60_exceptions.md: the rejected CMD write, and the return from the FAULT state. -/

namespace Sys2Proof.Machine

/-- Settles O7: of the three outcomes of a CMD write only ERR_BUSY is a busy machine's. -/
theorem busyWriteSetsOnlyErrBusy : Obligations.BusyWriteSetsOnlyErrBusy := by
  intro v s ha hop
  rw [exec_decodeWord_host v ha]
  rcases afterCmdWrite_cases s v with ⟨-, -, hidle, -⟩ | ⟨-, hidle, -⟩ | ⟨-, heq⟩
  · exact absurd hidle hop
  · exact absurd hidle hop
  · rw [heq, State.setErrBusy]

/-- A latched fault survives the commit of POLL, which makes no attempt then (43_streaming.md R184). -/
theorem commitPoll_dstate_of_fault {s : State} (h : s.dstate = .fault) : (commitPoll s).dstate = .fault := by
  simp [commitPoll_of_fault h, h]

/-- Settles O51: of the turns only SD_RESET, RESET, RST and the commit of POLL touch DSTATE, and POLL keeps FAULT. -/
theorem onlyResetsLeaveFault : Obligations.OnlyResetsLeaveFault := by
  intro s t h hfault hleft
  cases turn_of_step h with
  | rst e hi => exact ⟨by simp, .inl hi⟩
  | sdReset e hop => exact ⟨by simp, .inr ⟨.inl hop, by simp⟩⟩
  | reset e hop => exact ⟨by simp, .inr ⟨.inr hop, by simp⟩⟩
  | poll e => exact absurd (commitPoll_dstate_of_fault (s := s.withEnv e) hfault) hleft
  | _ => exact absurd hfault (by simpa using hleft)

end Sys2Proof.Machine
end

section
/-! PROOFS of 70_reset_and_hazards.md: what the RST input leaves. -/

namespace Sys2Proof.Machine

/-- Settles O43: RST gives the fields of R53's table the values they have in the reset state of the parameters in use
(O44), and cuts the free value of LAST to TW bits. -/
theorem rstResetsEverything : Obligations.RstResetsEverything := by
  intro s rest hi
  obtain ⟨hw, hr, harmed, hrem, hdstate, hresult, hvalue, hpartial, hresync, herrBusy, herrCmd, hremOvf, hop⟩ :=
    resetHoldsTheTabledValues (State.resetWith s.params) (.inr ⟨s.params, rfl⟩)
  exact ⟨_, step_of_rst hi, hw, hr, harmed, hrem, hdstate, hresult, hvalue, hpartial, hresync, herrBusy, herrCmd,
    hremOvf, hop, lowBits_lt _ _⟩

end Sys2Proof.Machine
end
